-- ==== Sys2Proof/Word.lean ====
section
/-! DEFINITION. The word types of the machine (R7, R8: every value is an unsigned integer of a stated width) and the
plainest operations on them. -/

namespace Sys2Proof

/-- An 8-bit value: a general register, a timer, a byte of memory (R9, R14, R26). -/
abbrev Byte := BitVec 8

/-- A 16-bit value: PC, I, a stack entry, an instruction word (R11, R12, R13, R41). -/
abbrev Word := BitVec 16

/-- The 12-bit address operand `nnn` (R42). -/
abbrev Addr12 := BitVec 12

/-- A 4-bit field of an instruction word (R42). -/
abbrev Nibble := BitVec 4

/-- The number of a general register, 0 to 15: every value a 4-bit field can hold is valid (R9). -/
abbrev Reg := Fin 16

/-- The number of a key, 0 to 15 (R18). -/
abbrev Key := Fin 16

/-- `{hi, lo}`: two bytes as one word, `hi` the high part (R7). -/
abbrev Word.ofBytes (hi lo : Byte) : Word := hi ++ lo

/-- `w[15:8]` (R7, R31). -/
abbrev Word.hi (w : Word) : Byte := w.extractLsb' 8 8

/-- `w[7:0]` (R7, R31). -/
abbrev Word.lo (w : Word) : Byte := w.extractLsb' 0 8

end Sys2Proof
end

