-- ==== Sys2Proof/Config.lean ====
section
/-! DEFINITION. What is fixed for the life of the core and is not state (R22 (e)): the parameters of R4 and R5 that a
rule of the model reads, and the two free values, which are opaque constants: FONT_BASE and the random bytes. -/

namespace Sys2Proof.Config

/-- MEM_SIZE (R4, R26): 4096 bytes. -/
def memSize : Nat := 4096

/-- ROM_BASE (R4, R27): the first byte of a loaded ROM and the reset value of PC. -/
def romBase : Nat := 0x200

/-- ROM_MAX (R4, R40): the longest ROM accepted, 4096 - 0x200 bytes. -/
def romMax : Nat := 3584

/-- FB_W (R4, R87): the framebuffer's width in pixels. -/
def fbWidth : Nat := 64

/-- FB_H (R4, R87): the framebuffer's height in pixels. -/
def fbHeight : Nat := 32

/-- FONT_BASE (R5, R27; decision D2, OPEN): the address of the first font byte, 0x000 to 0x1B0. A free constant with
that bound: whatever is proved holds for every font base in range (log entry 1). -/
opaque fontBase : Fin 0x1B1

/-- GLYPH_BYTES (R4): the bytes of one glyph. -/
def glyphBytes : Nat := 5

/-- FONT_DATA (R28; decision D3): the 80 font bytes, 16 glyphs of 5 bytes, digits 0 to F. -/
def fontData : List Byte :=
  [0xF0, 0x90, 0x90, 0x90, 0xF0] ++
  [0x20, 0x60, 0x20, 0x20, 0x70] ++
  [0xF0, 0x10, 0xF0, 0x80, 0xF0] ++
  [0xF0, 0x10, 0xF0, 0x10, 0xF0] ++
  [0x90, 0x90, 0xF0, 0x10, 0x10] ++
  [0xF0, 0x80, 0xF0, 0x10, 0xF0] ++
  [0xF0, 0x80, 0xF0, 0x90, 0xF0] ++
  [0xF0, 0x10, 0x20, 0x40, 0x40] ++
  [0xF0, 0x90, 0xF0, 0x90, 0xF0] ++
  [0xF0, 0x90, 0xF0, 0x10, 0xF0] ++
  [0xF0, 0x90, 0xF0, 0x90, 0x90] ++
  [0xE0, 0x90, 0xE0, 0x90, 0xE0] ++
  [0xF0, 0x80, 0x80, 0x80, 0xF0] ++
  [0xE0, 0x90, 0x90, 0x90, 0xE0] ++
  [0xF0, 0x80, 0xF0, 0x80, 0xF0] ++
  [0xF0, 0x80, 0xF0, 0x80, 0x80]

/-- The random-byte input of the step (R72): the byte that the `n`-th draw supplies, less one. A free value: nothing
is known of it but its range, 0 to 254, so that the byte drawn is 1 to 255 and never 0 (log entry 2). -/
opaque rndDraw : Nat → Fin 255

/-- The two values of FX18_TARGET (R5). -/
inductive TimerTarget where
  /-- the delay timer -/
  | dt
  /-- the sound timer -/
  | st
  deriving DecidableEq, Repr

/-- FX18_TARGET (R5, R84; decision D6): on this hardware the sound-timer-set instruction writes DT (log entry 10). -/
def fx18Target : TimerTarget := .dt

end Sys2Proof.Config
end

