-- ==== Sys2Proof/Syntax.lean ====
section
/-! DEFINITION. The instructions: one constructor per row of spec/opcode_table.json, in the table's order (R46). -/

namespace Sys2Proof

/-- The 35 instructions (R46). Operands are the fields of R42 at their own width (R44): `x` and `y` register numbers,
`kk` a byte, `nnn` a 12-bit address, `n` a row count. -/
inductive Instr where
  /-- 00E0 CLS (R85) -/
  | cls
  /-- 00EE RET (R53) -/
  | ret
  /-- 0nnn SYS nnn (R88) -/
  | sys (nnn : Addr12)
  /-- 1nnn JP nnn (R51) -/
  | jp (nnn : Addr12)
  /-- 2nnn CALL nnn (R52) -/
  | call (nnn : Addr12)
  /-- 3xkk SE Vx, kk (R54) -/
  | seImm (x : Reg) (kk : Byte)
  /-- 4xkk SNE Vx, kk (R55) -/
  | sneImm (x : Reg) (kk : Byte)
  /-- 5xy0 SE Vx, Vy (R56) -/
  | seReg (x y : Reg)
  /-- 6xkk LD Vx, kk (R59) -/
  | ldImm (x : Reg) (kk : Byte)
  /-- 7xkk ADD Vx, kk (R60) -/
  | addImm (x : Reg) (kk : Byte)
  /-- 8xy0 LD Vx, Vy (R61) -/
  | ldReg (x y : Reg)
  /-- 8xy1 OR Vx, Vy (R62) -/
  | orReg (x y : Reg)
  /-- 8xy2 AND Vx, Vy (R63) -/
  | andReg (x y : Reg)
  /-- 8xy3 XOR Vx, Vy (R64) -/
  | xorReg (x y : Reg)
  /-- 8xy4 ADD Vx, Vy (R65) -/
  | addReg (x y : Reg)
  /-- 8xy5 SUB Vx, Vy (R66) -/
  | subReg (x y : Reg)
  /-- 8xy6 SHR Vx, Vy (R68) -/
  | shr (x y : Reg)
  /-- 8xy7 SUBN Vx, Vy (R67) -/
  | subnReg (x y : Reg)
  /-- 8xyE SHL Vx, Vy (R69) -/
  | shl (x y : Reg)
  /-- 9xy0 SNE Vx, Vy (R57) -/
  | sneReg (x y : Reg)
  /-- Annn LD I, nnn (R73) -/
  | ldI (nnn : Addr12)
  /-- Bnnn JP V0, nnn (R58) -/
  | jpV0 (nnn : Addr12)
  /-- Cxkk RND Vx, kk (R71) -/
  | rnd (x : Reg) (kk : Byte)
  /-- Dxyn DRW Vx, Vy, n (R86) -/
  | drw (x y : Reg) (n : Nibble)
  /-- Ex9E SKP Vx (R79) -/
  | skp (x : Reg)
  /-- ExA1 SKNP Vx (R80) -/
  | sknp (x : Reg)
  /-- Fx07 LD Vx, DT (R82) -/
  | ldFromDt (x : Reg)
  /-- Fx0A LD Vx, K (R81) -/
  | ldKey (x : Reg)
  /-- Fx15 LD DT, Vx (R83) -/
  | ldDt (x : Reg)
  /-- Fx18 LD ST, Vx (R84) -/
  | ldSt (x : Reg)
  /-- Fx1E ADD I, Vx (R74) -/
  | addI (x : Reg)
  /-- Fx29 LD F, Vx (R75) -/
  | ldF (x : Reg)
  /-- Fx33 LD B, Vx (R76) -/
  | ldB (x : Reg)
  /-- Fx55 LD [I], Vx (R77) -/
  | stBulk (x : Reg)
  /-- Fx65 LD Vx, [I] (R78) -/
  | ldBulk (x : Reg)
  deriving DecidableEq, Repr

end Sys2Proof
end

