-- ==== Sys2Proof/WellFormed.lean ====
section
/-! DEFINITION. Which terms of `Instr` are instructions of the machine. The operand types already hold every operand to
its field (R9, R44: every register number and every immediate a field can carry is valid), so ONE check is left: SYS is
selected only after CLS and RET have failed to match (R46, R88), so a SYS term with their `nnn` stands for no word. -/

namespace Sys2Proof

/-- An `nnn` that SYS can carry: not 0x0E0 (CLS) and not 0x0EE (RET) (R88). -/
def Addr12.isSys (nnn : Addr12) : Bool := nnn != 0x0E0#12 && nnn != 0x0EE#12

/-- The term is the reading of some instruction word. -/
def Instr.wf : Instr → Bool
  | .sys nnn => nnn.isSys
  | _ => true

/-- `Instr.wf` as a proposition. -/
abbrev Instr.WellFormed (i : Instr) : Prop := i.wf = true

end Sys2Proof
end

