-- ==== Sys2Proof/Decode.lean ====
section
/-! DEFINITION. The decoder and the encoder. The decoder is the opcode map of R46, read top to bottom; it is total on
words and on byte lists, and a word that matches no row is refused by name (R47). The encoder is written from the same
rows and the formats of R43. -/

namespace Sys2Proof

/-- Why the decoder gives no instruction. -/
inductive DecodeError where
  /-- the word matches no row of R46 (R47). The step runs such a word as a no-op (R89): safe, nothing is lost. -/
  | unrecognised (w : Word)
  /-- fewer than two bytes were given. No step raises it: the fetch always reads two bytes (R31, R41). -/
  | truncated
  deriving DecidableEq, Repr

/-- The family nibble `w[15:12]` (R42). -/
def fieldOp (w : Word) : Nibble := w.extractLsb' 12 4

/-- A 4-bit field as a register number (R42, R9). -/
def Reg.ofNibble (b : Nibble) : Reg := ⟨b.toNat, b.isLt⟩

/-- A register number as a 4-bit field (R42). -/
def Reg.nibble (r : Reg) : Nibble := BitVec.ofNat 4 r.val

/-- Field x, `w[11:8]` (R42). -/
def fieldX (w : Word) : Reg := Reg.ofNibble (w.extractLsb' 8 4)

/-- Field y, `w[7:4]` (R42). -/
def fieldY (w : Word) : Reg := Reg.ofNibble (w.extractLsb' 4 4)

/-- Field n, `w[3:0]` (R42). -/
def fieldN (w : Word) : Nibble := w.extractLsb' 0 4

/-- Field kk, `w[7:0]` (R42). -/
def fieldKK (w : Word) : Byte := w.extractLsb' 0 8

/-- Field nnn, `w[11:0]` (R42). -/
def fieldNNN (w : Word) : Addr12 := w.extractLsb' 0 12

/-- One row of R46: the row matches `w` when `w & mask = pattern`. -/
structure OpcodeRow where
  mask : Word
  pattern : Word
  build : Word → Instr

/-- Rows 1 to 8 of R46. -/
def opcodeRows0 : List OpcodeRow :=
  [⟨0xFFFF, 0x00E0, fun _ => .cls⟩,
   ⟨0xFFFF, 0x00EE, fun _ => .ret⟩,
   ⟨0xF000, 0x0000, fun w => .sys (fieldNNN w)⟩,
   ⟨0xF000, 0x1000, fun w => .jp (fieldNNN w)⟩,
   ⟨0xF000, 0x2000, fun w => .call (fieldNNN w)⟩,
   ⟨0xF000, 0x3000, fun w => .seImm (fieldX w) (fieldKK w)⟩,
   ⟨0xF000, 0x4000, fun w => .sneImm (fieldX w) (fieldKK w)⟩,
   ⟨0xF00F, 0x5000, fun w => .seReg (fieldX w) (fieldY w)⟩]

/-- Rows 9 to 19 of R46. -/
def opcodeRows1 : List OpcodeRow :=
  [⟨0xF000, 0x6000, fun w => .ldImm (fieldX w) (fieldKK w)⟩,
   ⟨0xF000, 0x7000, fun w => .addImm (fieldX w) (fieldKK w)⟩,
   ⟨0xF00F, 0x8000, fun w => .ldReg (fieldX w) (fieldY w)⟩,
   ⟨0xF00F, 0x8001, fun w => .orReg (fieldX w) (fieldY w)⟩,
   ⟨0xF00F, 0x8002, fun w => .andReg (fieldX w) (fieldY w)⟩,
   ⟨0xF00F, 0x8003, fun w => .xorReg (fieldX w) (fieldY w)⟩,
   ⟨0xF00F, 0x8004, fun w => .addReg (fieldX w) (fieldY w)⟩,
   ⟨0xF00F, 0x8005, fun w => .subReg (fieldX w) (fieldY w)⟩,
   ⟨0xF00F, 0x8006, fun w => .shr (fieldX w) (fieldY w)⟩,
   ⟨0xF00F, 0x8007, fun w => .subnReg (fieldX w) (fieldY w)⟩,
   ⟨0xF00F, 0x800E, fun w => .shl (fieldX w) (fieldY w)⟩]

/-- Rows 20 to 26 of R46. -/
def opcodeRows2 : List OpcodeRow :=
  [⟨0xF00F, 0x9000, fun w => .sneReg (fieldX w) (fieldY w)⟩,
   ⟨0xF000, 0xA000, fun w => .ldI (fieldNNN w)⟩,
   ⟨0xF000, 0xB000, fun w => .jpV0 (fieldNNN w)⟩,
   ⟨0xF000, 0xC000, fun w => .rnd (fieldX w) (fieldKK w)⟩,
   ⟨0xF000, 0xD000, fun w => .drw (fieldX w) (fieldY w) (fieldN w)⟩,
   ⟨0xF0FF, 0xE09E, fun w => .skp (fieldX w)⟩,
   ⟨0xF0FF, 0xE0A1, fun w => .sknp (fieldX w)⟩]

/-- Rows 27 to 35 of R46. -/
def opcodeRows3 : List OpcodeRow :=
  [⟨0xF0FF, 0xF007, fun w => .ldFromDt (fieldX w)⟩,
   ⟨0xF0FF, 0xF00A, fun w => .ldKey (fieldX w)⟩,
   ⟨0xF0FF, 0xF015, fun w => .ldDt (fieldX w)⟩,
   ⟨0xF0FF, 0xF018, fun w => .ldSt (fieldX w)⟩,
   ⟨0xF0FF, 0xF01E, fun w => .addI (fieldX w)⟩,
   ⟨0xF0FF, 0xF029, fun w => .ldF (fieldX w)⟩,
   ⟨0xF0FF, 0xF033, fun w => .ldB (fieldX w)⟩,
   ⟨0xF0FF, 0xF055, fun w => .stBulk (fieldX w)⟩,
   ⟨0xF0FF, 0xF065, fun w => .ldBulk (fieldX w)⟩]

/-- The opcode map, 35 rows in match-priority order (R46). -/
def opcodeTable : List OpcodeRow := opcodeRows0 ++ opcodeRows1 ++ opcodeRows2 ++ opcodeRows3

/-- The row that selects the instruction of `w`: the first that matches (R46). -/
def selectRow (w : Word) : Option OpcodeRow :=
  opcodeTable.find? fun r => w &&& r.mask == r.pattern

/-- The instruction a word selects (R46), or the refusal of an unrecognised word (R47). -/
def decode (w : Word) : Except DecodeError Instr :=
  match selectRow w with
  | some r => .ok (r.build w)
  | none => .error (.unrecognised w)

/-- The instruction at the head of a list of bytes, high byte first (R31, R41), and the bytes after it. -/
def decodeBytes : List Byte → Except DecodeError (Instr × List Byte)
  | hi :: lo :: rest => (decode (Word.ofBytes hi lo)).map fun i => (i, rest)
  | _ => .error .truncated

/-- Format NNN: `oooo nnnn nnnn nnnn` (R43). -/
def encNNN (op : Nibble) (nnn : Addr12) : Word := op ++ nnn

/-- Format XKK: `oooo xxxx kkkk kkkk` (R43). -/
def encXKK (op : Nibble) (x : Reg) (kk : Byte) : Word := op ++ x.nibble ++ kk

/-- Formats XY and XYN: `oooo xxxx yyyy nnnn`, `n` fixed in XY (R43). -/
def encXYN (op : Nibble) (x y : Reg) (n : Nibble) : Word := op ++ x.nibble ++ y.nibble ++ n

/-- The word of an instruction (R46). On a term that is not well formed (SYS with the `nnn` of CLS or RET) it gives
the word of CLS or RET. -/
def encode : Instr → Word
  | .cls => 0x00E0
  | .ret => 0x00EE
  | .sys nnn => encNNN 0x0 nnn
  | .jp nnn => encNNN 0x1 nnn
  | .call nnn => encNNN 0x2 nnn
  | .seImm x kk => encXKK 0x3 x kk
  | .sneImm x kk => encXKK 0x4 x kk
  | .seReg x y => encXYN 0x5 x y 0x0
  | .ldImm x kk => encXKK 0x6 x kk
  | .addImm x kk => encXKK 0x7 x kk
  | .ldReg x y => encXYN 0x8 x y 0x0
  | .orReg x y => encXYN 0x8 x y 0x1
  | .andReg x y => encXYN 0x8 x y 0x2
  | .xorReg x y => encXYN 0x8 x y 0x3
  | .addReg x y => encXYN 0x8 x y 0x4
  | .subReg x y => encXYN 0x8 x y 0x5
  | .shr x y => encXYN 0x8 x y 0x6
  | .subnReg x y => encXYN 0x8 x y 0x7
  | .shl x y => encXYN 0x8 x y 0xE
  | .sneReg x y => encXYN 0x9 x y 0x0
  | .ldI nnn => encNNN 0xA nnn
  | .jpV0 nnn => encNNN 0xB nnn
  | .rnd x kk => encXKK 0xC x kk
  | .drw x y n => encXYN 0xD x y n
  | .skp x => encXKK 0xE x 0x9E
  | .sknp x => encXKK 0xE x 0xA1
  | .ldFromDt x => encXKK 0xF x 0x07
  | .ldKey x => encXKK 0xF x 0x0A
  | .ldDt x => encXKK 0xF x 0x15
  | .ldSt x => encXKK 0xF x 0x18
  | .addI x => encXKK 0xF x 0x1E
  | .ldF x => encXKK 0xF x 0x29
  | .ldB x => encXKK 0xF x 0x33
  | .stBulk x => encXKK 0xF x 0x55
  | .ldBulk x => encXKK 0xF x 0x65

/-- The bytes of an instruction as memory holds them, high byte first (R31). -/
def encodeBytes (i : Instr) : List Byte := [(encode i).hi, (encode i).lo]

/-- The first instruction word of a number whose bits are numbered as spec/opcode_table.json numbers them (bit 0 the
least significant bit of the first word): its low 16 bits, the bits from `nbits` up being 0. -/
def tableWord (nbits w : Nat) : Word := BitVec.ofNat 16 (w % 2 ^ nbits)

/-- What the decoder reads from an opcode-table word laid out in memory order: high byte first (R31). -/
def decodeTableWord (nbits w : Nat) : Option Instr :=
  match decodeBytes [(tableWord nbits w).hi, (tableWord nbits w).lo] with
  | .ok (i, _) => some i
  | .error _ => none

end Sys2Proof
end

