-- ==== Sys2Proof/Machine/State.lean ====
section
/-! DEFINITION. The state of the core as plain data: the whole tuple of 10_state.md (R9 to R21; R22 says there is no
other state), one field of the model's own (`rndCount`), the reasons a step can stop, and the state after reset. -/

namespace Sys2Proof.Machine

/-- The faults of the core (R90): there is exactly one, code 1. It is a VALUE OF THE FAULT REGISTER (R20), recorded by
a next state (R91); no step of the model ends in `Host.Outcome.fault`. -/
inductive Fault where
  /-- raised by RET on an empty call stack (R53, R91), recorded in FAULT. Safe: the machine goes on as R92 says (the
  step is inert), and nothing the spec gives is cut off (log entry 4). -/
  | stackUnderflow
  deriving DecidableEq, Repr

/-- The reasons the model has no meaning for an instruction. -/
inductive Refusal where
  /-- no meaning is written for the instruction. Raised by no arm of `exec`: every instruction has its meaning. Safe. -/
  | notModelled (mnemonic : String)
  deriving DecidableEq, Repr

/-- MEM (R21) as its listed cells (physical address, byte) in the canonical form `Memory.wf` of Machine/Ops.lean; an
address that is not listed reads as `Memory.unlisted` says (log entry 5). -/
abbrev Memory := List Host.Cell

/-- FB (R16): 64 columns of 32 rows, `fb[cx][cy]`; true means lit. -/
abbrev Framebuffer := Vector (Vector Bool 32) 64

/-- The whole state of the core (10_state.md, the tuple before R9; R22). -/
structure State where
  /-- V0 to VF (R9, R10) -/
  v : Vector Byte 16
  /-- the index register I (R11) -/
  i : Word
  /-- the program counter (R12) -/
  pc : Word
  /-- the call stack, newest last, unbounded (R13) -/
  stack : List Word
  /-- main memory (R21, R26) -/
  mem : Memory
  /-- the delay timer (R14) -/
  dt : Byte
  /-- the sound timer (R15) -/
  st : Byte
  /-- the framebuffer (R16) -/
  fb : Framebuffer
  /-- the dirty flag (R17) -/
  dirty : Bool
  /-- the key latch K (R18); true means pressed -/
  keys : Vector Bool 16
  /-- the awaiting-release slot WAIT (R19) -/
  wait : Option Key
  /-- the fault register FAULT (R20) -/
  fault : Option Fault
  /-- THE MODEL'S OWN, not the spec's: how many random bytes have been drawn; it indexes the free value
  `Config.rndDraw` (R72; log entry 2) -/
  rndCount : Nat
  deriving DecidableEq, Repr

/-- The state right after reset (R24, R104): PC at 0x200, the stack empty, memory with nothing listed (so that it
reads as the font and zeros), everything else zero, false or none (decision D4; log entries 5 and 7). -/
def State.reset : State where
  v := Vector.replicate 16 0
  i := 0
  pc := 0x200
  stack := []
  mem := []
  dt := 0
  st := 0
  fb := Vector.replicate 64 (Vector.replicate 32 false)
  dirty := false
  keys := Vector.replicate 16 false
  wait := none
  fault := none
  rndCount := 0

end Sys2Proof.Machine
end

