-- ==== Sys2Proof/Machine/Ops.lean ====
section
/-! DEFINITION. The named operations over memory, registers, the stack, the framebuffer and the keys, and taking the one
exception. Every meaning reads and writes the state through these. -/

namespace Sys2Proof.Machine

/-! ## Memory -/

/-- The font byte at an address below 0x200 (R28): `FONT_DATA[a - FONT_BASE]` inside the font, 0 outside it. -/
def fontByte (a : Nat) : Byte :=
  if Config.fontBase.val ≤ a then Config.fontData.getD (a - Config.fontBase.val) 0 else 0

/-- What an address that memory does not list reads as: the reset contents (R24, R27, R104): 0 from 0x200 up, below it
the font and zeros (log entry 5). -/
def Memory.unlisted (a : Nat) : Byte := if Config.romBase ≤ a then 0 else fontByte a

/-- The byte at a physical address. -/
def Memory.read : Memory → Nat → Byte
  | [], a => Memory.unlisted a
  | (b, w) :: m, a => if a = b then w else Memory.read m a

/-- The listing of one cell: none when the byte is what the unlisted address reads as. -/
def Memory.cell (a : Nat) (w : Byte) : Memory := if w = Memory.unlisted a then [] else [(a, w)]

/-- Memory with the byte `w` at the physical address `a`, in canonical form again. -/
def Memory.write : Memory → Nat → Byte → Memory
  | [], a, w => Memory.cell a w
  | (b, u) :: m, a, w =>
    if a < b then Memory.cell a w ++ (b, u) :: m
    else if a = b then Memory.cell a w ++ m
    else (b, u) :: Memory.write m a w

/-- Addresses strictly rising from `lo` on, all below 4096 (R26), no cell equal to the unlisted reading. -/
def Memory.wfFrom : Nat → Memory → Bool
  | _, [] => true
  | lo, (a, w) :: m =>
    decide (lo ≤ a) && decide (a < Config.memSize) && decide (w ≠ Memory.unlisted a) && Memory.wfFrom (a + 1) m

/-- The canonical form: two memories in it are equal exactly when they read alike everywhere. -/
def Memory.wf (m : Memory) : Bool := Memory.wfFrom 0 m

/-- `phys(a) = a mod 4096` (R29, decision D1). -/
def phys (a : Word) : Nat := a.toNat % Config.memSize

/-- `MemRead(a, 1)` (R30). -/
def State.readByte (s : State) (a : Word) : Byte := Memory.read s.mem (phys a)

/-- `MemWrite(a, 1, w)` (R30). No address is protected (R35). -/
def State.writeByte (s : State) (a : Word) (w : Byte) : State := { s with mem := Memory.write s.mem (phys a) w }

/-- `MemRead(PC, 2)`: the instruction word at the program counter, high byte first, each address reduced by itself
(R31, R29). -/
def State.fetchWord (s : State) : Word := Word.ofBytes (s.readByte s.pc) (s.readByte (s.pc + 1))

/-! ## Registers -/

/-- `V[x]` (R9). -/
def State.getV (s : State) (x : Reg) : Byte := s.v[x]

/-- `V[x] <- b` (R9). -/
def State.setV (s : State) (x : Reg) (b : Byte) : State := { s with v := s.v.set x.val b }

/-- The flag register VF is V15 (R10). -/
def regF : Reg := 15

/-- Write a result to `Vx` and THEN the flag to VF, so that with `x` = 0xF the flag stands (R10, decision D5). -/
def State.setVWithFlag (s : State) (x : Reg) (result flag : Byte) : State := (s.setV x result).setV regF flag

/-- `I <- a` (R11). -/
def State.setI (s : State) (a : Word) : State := { s with i := a }

/-- `pc <- a` (R12). -/
def State.setPc (s : State) (a : Word) : State := { s with pc := a }

/-- The advance of the fetch and of a skip: `pc <- (pc + 2) mod 65536` (R45, decision D12). -/
def State.advance (s : State) : State := s.setPc (s.pc + 2)

/-- The rewind of the key-wait: `pc <- (pc - 2) mod 65536` (R81). -/
def State.rewind (s : State) : State := s.setPc (s.pc - 2)

/-- `if c: pc <- (pc + 2) mod 65536` (R54 to R57, R79, R80). -/
def State.skipIf (s : State) (c : Bool) : State := if c then s.advance else s

/-! ## Call stack -/

/-- `push(a)`: the newest entry stands last; a push always succeeds (R13, decision D11). -/
def State.push (s : State) (a : Word) : State := { s with stack := s.stack ++ [a] }

/-- `pop()`: the newest entry and the state without it; none on an empty stack (R13). -/
def State.pop? (s : State) : Option (Word × State) :=
  match s.stack.getLast? with
  | some a => some (a, { s with stack := s.stack.dropLast })
  | none => none

/-! ## The fault -/

/-- `raise f`: taking the one exception of the machine (R91). FAULT is written and the step ends; the PC advance of the
fetch stands, nothing is saved, there is no vector, no handler and no mode (decision D10). There is no return from it:
no instruction clears FAULT (R92). -/
def State.raise (s : State) (f : Fault) : State := { s with fault := some f }

/-! ## Timers -/

/-- `DT <- b` (R14). -/
def State.setDt (s : State) (b : Byte) : State := { s with dt := b }

/-- `ST <- b` (R15). -/
def State.setSt (s : State) (b : Byte) : State := { s with st := b }

/-- Write the timer that a parameter names (R84). -/
def State.setTimer (s : State) (t : Config.TimerTarget) (b : Byte) : State :=
  match t with
  | .dt => s.setDt b
  | .st => s.setSt b

/-! ## Framebuffer -/

/-- `FB[cx][cy]` (R16). False outside the 64 by 32 grid, which no instruction reads. -/
def Framebuffer.pixel (fb : Framebuffer) (cx cy : Nat) : Bool :=
  if h : cx < 64 ∧ cy < 32 then (fb[cx]'h.1)[cy]'h.2 else false

/-- `FB[cx][cy] <- b` (R16). Nothing outside the 64 by 32 grid, which no instruction writes. -/
def Framebuffer.setPixel (fb : Framebuffer) (cx cy : Nat) (b : Bool) : Framebuffer :=
  if h : cx < 64 ∧ cy < 32 then fb.set cx ((fb[cx]'h.1).set cy b h.2) h.1 else fb

/-- Every pixel false (R85). -/
def Framebuffer.blank : Framebuffer := Vector.replicate 64 (Vector.replicate 32 false)

/-- Write the framebuffer and set DIRTY, as CLS and DRW do (R17, R85, R86). -/
def State.present (s : State) (fb : Framebuffer) : State := { s with fb := fb, dirty := true }

/-- One sprite bit at one pixel: a 1 toggles the pixel, and `hit` becomes true when the pixel was lit (R86). -/
def blitPixel (cx cy : Nat) (bit : Bool) (a : Framebuffer × Bool) : Framebuffer × Bool :=
  if bit then (a.1.setPixel cx cy (!a.1.pixel cx cy), a.2 || a.1.pixel cx cy) else a

/-- One sprite row, leftmost column first; bit 7 is the leftmost pixel (R86, R87, decision D17). -/
def blitRow (x0 cy cols : Nat) (b : Byte) (a : Framebuffer × Bool) : Framebuffer × Bool :=
  (List.range cols).foldl (fun a c => blitPixel (x0 + c) cy (b.getLsbD (7 - c)) a) a

/-- The rows of a sprite, top row first; `row r` is the byte of sprite row `r` (R86). -/
def blitRows (x0 y0 rows cols : Nat) (row : Nat → Byte) (a : Framebuffer × Bool) : Framebuffer × Bool :=
  (List.range rows).foldl (fun a r => blitRow x0 (y0 + r) cols (row r) a) a

/-! ## Keys and the awaiting-release slot -/

/-- `K[k]` (R18). -/
def State.keyDown (s : State) (k : Key) : Bool := s.keys[k]

/-- `K[k] <- b` (R97). -/
def State.setKey (s : State) (k : Key) (b : Bool) : State := { s with keys := s.keys.set k.val b }

/-- The smallest `k` with `K[k]` true (R81, decision D9); none when no key is down. -/
def State.lowestKeyDown (s : State) : Option Key := (List.finRange 16).find? fun k => s.keyDown k

/-- `WAIT <- w` (R19). -/
def State.setWait (s : State) (w : Option Key) : State := { s with wait := w }

/-! ## The random input -/

/-- `rnd()`: the byte the next draw supplies, 1 to 255, never 0 (R72; log entry 2). -/
def State.rndByte (s : State) : Byte := BitVec.ofNat 8 ((Config.rndDraw s.rndCount).val + 1)

/-- One draw is taken (R71). -/
def State.drawn (s : State) : State := { s with rndCount := s.rndCount + 1 }

end Sys2Proof.Machine
end

