-- ==== Sys2Proof/Machine/Operands.lean ====
section
/-! DEFINITION. The operand forms: addresses, the registers of the bulk instructions, the key a register names, the
origin and clipped extent of a sprite. -/

namespace Sys2Proof.Machine

/-- `zext_16(nnn)` (R44). -/
def addrOperand (nnn : Addr12) : Word := nnn.setWidth 16

/-- `zext_16(V[x])` (R44). -/
def State.vWord (s : State) (x : Reg) : Word := (s.getV x).setWidth 16

/-- Register-indirect through I with the implied offset `j`: `(I + j) mod 65536`, before `phys` (43_memory_ops.md,
R29). -/
def State.ea (s : State) (j : Nat) : Word := s.i + BitVec.ofNat 16 j

/-- V0 to Vx in the order of the bulk instructions, V0 first (R77, R78). -/
def regsUpTo (x : Reg) : List Reg := (List.finRange 16).take (x.val + 1)

/-- I after a bulk instruction: `(I + x + 1) mod 65536` (R77, R78). -/
def State.iAfterBulk (s : State) (x : Reg) : Word := s.i + BitVec.ofNat 16 (x.val + 1)

/-- `FONT_BASE + 5 * zext_16(V[x])`, the whole byte, no reduction to 4 bits (R75, decision D7). -/
def State.glyphAddr (s : State) (x : Reg) : Word :=
  BitVec.ofNat 16 (Config.fontBase.val + Config.glyphBytes * (s.getV x).toNat)

/-- The key a register names: `V[x][3:0]` (R79, decision D8). -/
def State.keyNamed (s : State) (x : Reg) : Key := Reg.ofNibble ((s.getV x).extractLsb' 0 4)

/-- `X0 = V[x] mod 64` (R86). -/
def State.originX (s : State) (x : Reg) : Nat := (s.getV x).toNat % Config.fbWidth

/-- `Y0 = V[y] mod 32` (R86). -/
def State.originY (s : State) (y : Reg) : Nat := (s.getV y).toNat % Config.fbHeight

/-- `rows = min(n, 32 - Y0)`: clipped at the bottom edge (R86). -/
def drawnRows (n : Nibble) (y0 : Nat) : Nat := min n.toNat (Config.fbHeight - y0)

/-- `cols = min(8, 64 - X0)`: clipped at the right edge (R86). -/
def drawnCols (x0 : Nat) : Nat := min 8 (Config.fbWidth - x0)

end Sys2Proof.Machine
end

