-- ==== Sys2Proof/Machine/Flags.lean ====
section
/-! DEFINITION. The results and the VF flags of the arithmetic (R10, R60 to R70), each computed exactly on natural
numbers and narrowed at the end. -/

namespace Sys2Proof.Machine

/-- A Boolean as a number: 1 for true, 0 for false (R8). -/
def flagByte (c : Bool) : Byte := if c then 1 else 0

/-- `(a + b) mod 256` (R60, R65, R70 (a)). -/
def addResult (a b : Byte) : Byte := BitVec.ofNat 8 (a.toNat + b.toNat)

/-- 1 if the sum exceeds 255, else 0 (R65). -/
def carryFlag (a b : Byte) : Byte := flagByte (decide (255 < a.toNat + b.toNat))

/-- `(a - b) mod 256` (R66, R67, R70 (c)). -/
def subResult (a b : Byte) : Byte := BitVec.ofInt 8 ((a.toNat : Int) - b.toNat)

/-- NOT borrow of `a - b`: 1 if `a >= b`, else 0 (R66, R67). -/
def noBorrowFlag (a b : Byte) : Byte := flagByte (decide (b.toNat ≤ a.toNat))

/-- `b >> 1`, a zero shifted in (R68). -/
def shrResult (b : Byte) : Byte := BitVec.ofNat 8 (b.toNat / 2)

/-- Bit 0 of the OLD Vx (R68, conflict C1). -/
def shrFlag (a : Byte) : Byte := flagByte (a.getLsbD 0)

/-- `(b << 1) mod 256`, a zero shifted in (R69). -/
def shlResult (b : Byte) : Byte := BitVec.ofNat 8 (b.toNat * 2)

/-- Bit 7 of the OLD Vx (R69). -/
def shlFlag (a : Byte) : Byte := flagByte (a.getLsbD 7)

/-- VF after OR, AND and XOR: 0, always (R62 to R64). -/
def logicFlag : Byte := 0

/-- Hundreds digit (R76). -/
def bcdHundreds (v : Byte) : Byte := BitVec.ofNat 8 (v.toNat / 100)

/-- Tens digit (R76). -/
def bcdTens (v : Byte) : Byte := BitVec.ofNat 8 (v.toNat / 10 % 10)

/-- Units digit (R76). -/
def bcdUnits (v : Byte) : Byte := BitVec.ofNat 8 (v.toNat % 10)

/-- A timer after one tick: one less, or 0 when it is 0 (R96). -/
def tickDown (t : Byte) : Byte := if t = 0 then 0 else t - 1

end Sys2Proof.Machine
end

