-- ==== Sys2Proof/Machine/ControlFlow.lean ====
section
/-! DEFINITION. The control-flow instructions (R51 to R58). The state given is the one after the fetch's advance:
`s.pc` is pc0 + 2 (R45; log entry 13). -/

namespace Sys2Proof.Machine

/-- JP nnn (R51). -/
def execJp (nnn : Addr12) (s : State) : Host.Outcome State Fault Refusal :=
  .next (s.setPc (addrOperand nnn))

/-- CALL nnn (R52): the pushed value is the advanced PC. -/
def execCall (nnn : Addr12) (s : State) : Host.Outcome State Fault Refusal :=
  .next ((s.push s.pc).setPc (addrOperand nnn))

/-- RET (R53): pops into PC, or takes StackUnderflow on an empty stack (R91). -/
def execRet (s : State) : Host.Outcome State Fault Refusal :=
  match s.pop? with
  | some (a, t) => .next (t.setPc a)
  | none => .next (s.raise .stackUnderflow)

/-- SE Vx, kk (R54). -/
def execSeImm (x : Reg) (kk : Byte) (s : State) : Host.Outcome State Fault Refusal :=
  .next (s.skipIf (s.getV x == kk))

/-- SNE Vx, kk (R55). -/
def execSneImm (x : Reg) (kk : Byte) (s : State) : Host.Outcome State Fault Refusal :=
  .next (s.skipIf (s.getV x != kk))

/-- SE Vx, Vy (R56). -/
def execSeReg (x y : Reg) (s : State) : Host.Outcome State Fault Refusal :=
  .next (s.skipIf (s.getV x == s.getV y))

/-- SNE Vx, Vy (R57). -/
def execSneReg (x y : Reg) (s : State) : Host.Outcome State Fault Refusal :=
  .next (s.skipIf (s.getV x != s.getV y))

/-- JP V0, nnn (R58): always V0; the 16-bit sum is kept, not masked (decision D28). -/
def execJpV0 (nnn : Addr12) (s : State) : Host.Outcome State Fault Refusal :=
  .next (s.setPc (addrOperand nnn + s.vWord 0))

end Sys2Proof.Machine
end

