-- ==== Sys2Proof/Machine/Display.lean ====
section
/-! DEFINITION. The display instructions (R85 to R87). -/

namespace Sys2Proof.Machine

/-- CLS (R85): DIRTY is set too (decision D18). -/
def execCls (s : State) : Host.Outcome State Fault Refusal :=
  .next (s.present Framebuffer.blank)

/-- The sprite blit of DRW from the state before it: the framebuffer after all bits, and whether a lit pixel went dark
(R86). -/
def State.blit (s : State) (x y : Reg) (n : Nibble) : Framebuffer × Bool :=
  blitRows (s.originX x) (s.originY y) (drawnRows n (s.originY y)) (drawnCols (s.originX x))
    (fun r => s.readByte (s.ea r)) (s.fb, false)

/-- DRW Vx, Vy, n (R86): VF is the collision flag, written after all bits; DIRTY is set always. -/
def execDrw (x y : Reg) (n : Nibble) (s : State) : Host.Outcome State Fault Refusal :=
  .next ((s.present (s.blit x y n).1).setV regF (flagByte (s.blit x y n).2))

end Sys2Proof.Machine
end

