-- ==== Sys2Proof/Machine/Input.lean ====
section
/-! DEFINITION. The key-input instructions (R79 to R81). -/

namespace Sys2Proof.Machine

/-- SKP Vx (R79). -/
def execSkp (x : Reg) (s : State) : Host.Outcome State Fault Refusal :=
  .next (s.skipIf (s.keyDown (s.keyNamed x)))

/-- SKNP Vx (R80). -/
def execSknp (x : Reg) (s : State) : Host.Outcome State Fault Refusal :=
  .next (s.skipIf (!s.keyDown (s.keyNamed x)))

/-- The key number as a byte, 0 to 15 (R81). -/
def keyByte (k : Key) : Byte := BitVec.ofNat 8 k.val

/-- The key-wait with no key latched: latch the lowest key that is down, if any, and run again (R81, phase 1). -/
def State.awaitPress (s : State) : State :=
  match s.lowestKeyDown with
  | none => s.rewind
  | some k => (s.setWait (some k)).rewind

/-- The key-wait with key `k` latched: run again while it is down, deliver it once it is up (R81, phase 2). -/
def State.awaitRelease (s : State) (x : Reg) (k : Key) : State :=
  if s.keyDown k then s.rewind else (s.setV x (keyByte k)).setWait none

/-- LD Vx, K (R81): press, then release. -/
def execLdKey (x : Reg) (s : State) : Host.Outcome State Fault Refusal :=
  match s.wait with
  | none => .next s.awaitPress
  | some k => .next (s.awaitRelease x k)

end Sys2Proof.Machine
end

