-- ==== Sys2Proof/Machine/MemoryOps.lean ====
section
/-! DEFINITION. The index-register and memory instructions (R73 to R78). No address faults (R29); none sets a flag. -/

namespace Sys2Proof.Machine

/-- LD I, nnn (R73). -/
def execLdI (nnn : Addr12) (s : State) : Host.Outcome State Fault Refusal :=
  .next (s.setI (addrOperand nnn))

/-- ADD I, Vx (R74): modulo 65536, no flag. -/
def execAddI (x : Reg) (s : State) : Host.Outcome State Fault Refusal :=
  .next (s.setI (s.i + s.vWord x))

/-- LD F, Vx (R75). -/
def execLdF (x : Reg) (s : State) : Host.Outcome State Fault Refusal :=
  .next (s.setI (s.glyphAddr x))

/-- The three stores of LD B (R76), in ascending order. -/
def State.storeBcd (s : State) (v : Byte) : State :=
  ((s.writeByte (s.ea 0) (bcdHundreds v)).writeByte (s.ea 1) (bcdTens v)).writeByte (s.ea 2) (bcdUnits v)

/-- LD B, Vx (R76): I is not changed. -/
def execLdB (x : Reg) (s : State) : Host.Outcome State Fault Refusal :=
  .next (s.storeBcd (s.getV x))

/-- The stores of the bulk store: `MEM[I + r] <- V[r]` for each register of the list in turn (R77). -/
def State.storeRegs (s : State) (rs : List Reg) : State :=
  rs.foldl (fun t r => t.writeByte (s.ea r.val) (s.getV r)) s

/-- LD [I], Vx (R77): V0 to Vx to memory, then I advances by x + 1. -/
def execStBulk (x : Reg) (s : State) : Host.Outcome State Fault Refusal :=
  .next ((s.storeRegs (regsUpTo x)).setI (s.iAfterBulk x))

/-- The loads of the bulk load: `V[r] <- MEM[I + r]` for each register of the list in turn (R78). -/
def State.loadRegs (s : State) (rs : List Reg) : State :=
  rs.foldl (fun t r => t.setV r (s.readByte (s.ea r.val))) s

/-- LD Vx, [I] (R78): memory to V0 to Vx, then I advances by x + 1. -/
def execLdBulk (x : Reg) (s : State) : Host.Outcome State Fault Refusal :=
  .next ((s.loadRegs (regsUpTo x)).setI (s.iAfterBulk x))

end Sys2Proof.Machine
end

