-- ==== Sys2Proof/Machine/Random.lean ====
section
/-! DEFINITION. The random-byte instruction (R71, R72). -/

namespace Sys2Proof.Machine

/-- RND Vx, kk (R71): one draw, a free value 1 to 255 (log entry 2), ANDed with kk. -/
def execRnd (x : Reg) (kk : Byte) (s : State) : Host.Outcome State Fault Refusal :=
  .next (s.drawn.setV x (s.rndByte &&& kk))

end Sys2Proof.Machine
end

