-- ==== Sys2Proof/Machine/RegisterOps.lean ====
section
/-! DEFINITION. The register and arithmetic instructions (R59 to R70). Operands are read from the state given, then Vx
is written, then VF (R10). None touches anything but V. -/

namespace Sys2Proof.Machine

/-- LD Vx, kk (R59). -/
def execLdImm (x : Reg) (kk : Byte) (s : State) : Host.Outcome State Fault Refusal :=
  .next (s.setV x kk)

/-- ADD Vx, kk (R60): no flag. -/
def execAddImm (x : Reg) (kk : Byte) (s : State) : Host.Outcome State Fault Refusal :=
  .next (s.setV x (addResult (s.getV x) kk))

/-- LD Vx, Vy (R61): no flag. -/
def execLdReg (x y : Reg) (s : State) : Host.Outcome State Fault Refusal :=
  .next (s.setV x (s.getV y))

/-- OR Vx, Vy (R62): VF is zeroed. -/
def execOrReg (x y : Reg) (s : State) : Host.Outcome State Fault Refusal :=
  .next (s.setVWithFlag x (s.getV x ||| s.getV y) logicFlag)

/-- AND Vx, Vy (R63): VF is zeroed. -/
def execAndReg (x y : Reg) (s : State) : Host.Outcome State Fault Refusal :=
  .next (s.setVWithFlag x (s.getV x &&& s.getV y) logicFlag)

/-- XOR Vx, Vy (R64): VF is zeroed. -/
def execXorReg (x y : Reg) (s : State) : Host.Outcome State Fault Refusal :=
  .next (s.setVWithFlag x (s.getV x ^^^ s.getV y) logicFlag)

/-- ADD Vx, Vy (R65): VF is the carry. -/
def execAddReg (x y : Reg) (s : State) : Host.Outcome State Fault Refusal :=
  .next (s.setVWithFlag x (addResult (s.getV x) (s.getV y)) (carryFlag (s.getV x) (s.getV y)))

/-- SUB Vx, Vy (R66): Vx - Vy, VF is NOT borrow. -/
def execSubReg (x y : Reg) (s : State) : Host.Outcome State Fault Refusal :=
  .next (s.setVWithFlag x (subResult (s.getV x) (s.getV y)) (noBorrowFlag (s.getV x) (s.getV y)))

/-- SUBN Vx, Vy (R67): Vy - Vx, VF is NOT borrow. -/
def execSubnReg (x y : Reg) (s : State) : Host.Outcome State Fault Refusal :=
  .next (s.setVWithFlag x (subResult (s.getV y) (s.getV x)) (noBorrowFlag (s.getV y) (s.getV x)))

/-- SHR Vx, Vy (R68): Vy is shifted, VF is bit 0 of the old Vx. -/
def execShr (x y : Reg) (s : State) : Host.Outcome State Fault Refusal :=
  .next (s.setVWithFlag x (shrResult (s.getV y)) (shrFlag (s.getV x)))

/-- SHL Vx, Vy (R69): Vy is shifted, VF is bit 7 of the old Vx. -/
def execShl (x y : Reg) (s : State) : Host.Outcome State Fault Refusal :=
  .next (s.setVWithFlag x (shlResult (s.getV y)) (shlFlag (s.getV x)))

end Sys2Proof.Machine
end

