-- ==== Sys2Proof/Machine/Sys.lean ====
section
/-! DEFINITION. SYS and the words that select no instruction (R88, R89): no-ops. -/

namespace Sys2Proof.Machine

/-- SYS nnn (R88): nothing beyond the fetch's advance; `nnn` is ignored. -/
def execSys (_nnn : Addr12) (s : State) : Host.Outcome State Fault Refusal :=
  .next s

/-- An unrecognised word (R89): nothing beyond the fetch's advance. -/
def execUnrecognised (s : State) : Host.Outcome State Fault Refusal :=
  .next s

end Sys2Proof.Machine
end

