-- ==== Sys2Proof/Machine/Timers.lean ====
section
/-! DEFINITION. The timer instructions (R82 to R84). -/

namespace Sys2Proof.Machine

/-- LD Vx, DT (R82). -/
def execLdFromDt (x : Reg) (s : State) : Host.Outcome State Fault Refusal :=
  .next (s.setV x s.dt)

/-- LD DT, Vx (R83). -/
def execLdDt (x : Reg) (s : State) : Host.Outcome State Fault Refusal :=
  .next (s.setDt (s.getV x))

/-- LD ST, Vx (R84): writes the timer FX18_TARGET names, which is DT on this hardware (decision D6, conflict C2). -/
def execLdSt (x : Reg) (s : State) : Host.Outcome State Fault Refusal :=
  .next (s.setTimer Config.fx18Target (s.getV x))

end Sys2Proof.Machine
end

