-- ==== Sys2Proof/Machine/Step.lean ====
section
/-! DEFINITION. The `step` operation (R45), and placing an instruction where the next step fetches it. -/

namespace Sys2Proof.Machine

/-- The `step` operation (R45): under a fault nothing happens (R92); otherwise the word at PC is fetched, PC advances
by 2, and the instruction the word selects is executed, or, where it selects none, nothing more happens (R89). -/
def step (s : State) : Host.Outcome State Fault Refusal :=
  match s.fault with
  | some _ => .next s
  | none =>
    match decode s.fetchWord with
    | .ok i => exec i s.advance
    | .error _ => execUnrecognised s.advance

/-- `s` with the instruction of an opcode-table word stored where `step` fetches next: its high byte at PC, its low byte
at PC + 1 (R31), and FAULT none, which the fetch needs (R45). It is no operation of the machine: it stands for a load of
the program from outside (R106; log entry 6). -/
def State.withFetchWord (s : State) (nbits w : Nat) : State :=
  { (s.writeByte s.pc (tableWord nbits w).hi).writeByte (s.pc + 1) (tableWord nbits w).lo with fault := none }

end Sys2Proof.Machine
end

