-- ==== Sys2Proof/Machine/HostOps.lean ====
section
/-! DEFINITION. The operations by which the host drives and observes the core (R103): reset, rom_load, tick, key_set,
dirty_clear and the reads. Each is atomic and lands between steps (R6, R94). -/

namespace Sys2Proof.Machine

/-- `reset` (R104): every piece of state to its reset value, memory included. The model's own draw counter is kept, so
that no draw is taken twice (log entry 15). -/
def State.hostReset (s : State) : State := { State.reset with rndCount := s.rndCount }

/-- The error result of rom_load (R40): no fault of the core, it does not set FAULT. -/
inductive LoadError where
  /-- more than 3584 bytes were given; nothing changes (R40) -/
  | romTooLarge
  deriving DecidableEq, Repr

/-- The bytes at consecutive addresses from `a` on. -/
def State.writeBytes (s : State) (a : Word) : List Byte → State
  | [] => s
  | b :: bs => (s.writeByte a b).writeBytes (a + 1) bs

/-- `rom_load(bytes)` (R40): rejected before any change when longer than ROM_MAX, else the bytes from 0x200 on. -/
def State.romLoad (s : State) (bytes : List Byte) : Except LoadError State :=
  if Config.romMax < bytes.length then .error .romTooLarge
  else .ok (s.writeBytes (BitVec.ofNat 16 Config.romBase) bytes)

/-- `tick` (R96): both timers down by one, floored at 0. -/
def State.tick (s : State) : State := (s.setDt (tickDown s.dt)).setSt (tickDown s.st)

/-- `key_set(idx, pressed)` (R97): an index above 15 is ignored. The index is any natural number (KEY_IDX_WIDTH is
OPEN, decision D24; log entry 11). -/
def State.keySet (s : State) (idx : Nat) (pressed : Bool) : State :=
  if h : idx < 16 then s.setKey ⟨idx, h⟩ pressed else s

/-- `dirty_clear` (R98). -/
def State.dirtyClear (s : State) : State := { s with dirty := false }

/-- `fb_read` (R98): a snapshot of the framebuffer, indexed `FB[cx][cy]`. -/
def State.fbRead (s : State) : Framebuffer := s.fb

/-- `dirty_read` (R98). -/
def State.dirtyRead (s : State) : Bool := s.dirty

/-- The numeric code of a fault (R20, R90; decision D10). -/
def Fault.code : Fault → Nat
  | .stackUnderflow => 1

/-- The status read (R99): ST, WAIT, and FAULT as its code, 0 standing for none. -/
def State.statusRead (s : State) : Byte × Option Key × Option Nat := (s.st, s.wait, s.fault.map Fault.code)

/-- The operations of the host that can change state, `step` among them (R103). The reads change nothing (R98, R99) and
are the functions above. -/
inductive HostOp where
  /-- reset (R104) -/
  | reset
  /-- rom_load (R40) -/
  | romLoad (bytes : List Byte)
  /-- step (R45) -/
  | step
  /-- tick (R96) -/
  | tick
  /-- key_set (R97) -/
  | keySet (idx : Nat) (pressed : Bool)
  /-- dirty_clear (R98) -/
  | dirtyClear
  deriving DecidableEq, Repr

/-- What one operation makes of the state. A rejected rom_load changes nothing (R40). -/
def applyOp (op : HostOp) (s : State) : Host.Outcome State Fault Refusal :=
  match op with
  | .reset => .next s.hostReset
  | .romLoad bytes =>
    match s.romLoad bytes with
    | .ok t => .next t
    | .error _ => .next s
  | .step => step s
  | .tick => .next s.tick
  | .keySet idx pressed => .next (s.keySet idx pressed)
  | .dirtyClear => .next s.dirtyClear

/-- A schedule of the host: its operations one after another (R6, R103). -/
def runOps : List HostOp → State → Host.Outcome State Fault Refusal
  | [], s => .next s
  | op :: ops, s =>
    match applyOp op s with
    | .next t => runOps ops t
    | .fault f => .fault f
    | .refused r => .refused r

end Sys2Proof.Machine
end

