-- ==== Sys2Proof/Safety.lean ====
section
/-! DEFINITION. What counts as a safe run and as the end of one, and the invariants that the statements name. -/

namespace Sys2Proof.Machine

/-- A state of a good run: the one fault has not been taken (R91: "the faulted state is never a final state of a good
run"). -/
def State.Safe (s : State) : Prop := s.fault = none

/-- The end-of-run convention (R109, decision D30): FAULT none, WAIT none, and the word at PC is a jump to PC itself. -/
def State.AtSelfJump (s : State) : Prop :=
  s.fault = none ∧ s.wait = none ∧ s.pc.toNat < 4096 ∧ s.fetchWord = 0x1000#16 ||| s.pc

/-- Memory is in its canonical form: physical addresses below 4096, rising, each listed byte different from the reset
contents of its address. -/
def State.MemCanonical (s : State) : Prop := Memory.wf s.mem = true

/-- The invariant of R19: whenever WAIT is `some k`, PC holds the address of a key-wait instruction. -/
def State.WaitAtKeyWait (s : State) : Prop :=
  s.wait ≠ none → ∃ x, decode s.fetchWord = .ok (.ldKey x)

/-- The font stands where R28 puts it: the 80 bytes from FONT_BASE are FONT_DATA. No invariant of every step: a program
may overwrite the font (R35). -/
def State.FontInPlace (s : State) : Prop :=
  ∀ k < 80, some (Memory.read s.mem (Config.fontBase.val + k)) = Config.fontData[k]?

/-! ### The terms the statements use -/

/-- A word of the table of R47: one that selects no instruction. -/
def UnrecognisedWord (w : Word) : Prop :=
  (w.toNat / 4096 = 5 ∧ w.toNat % 16 ≠ 0) ∨
  (w.toNat / 4096 = 8 ∧ w.toNat % 16 ∈ [0x8, 0x9, 0xA, 0xB, 0xC, 0xD, 0xF]) ∨
  (w.toNat / 4096 = 9 ∧ w.toNat % 16 ≠ 0) ∨
  (w.toNat / 4096 = 0xE ∧ w.toNat % 256 ∉ [0x9E, 0xA1]) ∨
  (w.toNat / 4096 = 0xF ∧ w.toNat % 256 ∉ [0x07, 0x0A, 0x15, 0x18, 0x1E, 0x29, 0x33, 0x55, 0x65])

/-- From every state the instruction answers a next state in which Vx holds the result and nothing else has changed. -/
def WritesVx (i : Instr) (x : Reg) (result : State → Byte) : Prop :=
  ∀ s, ∃ t, exec i s = .next t ∧ t.v[x] = result s ∧ (∀ r : Reg, r ≠ x → t.v[r] = s.v[r]) ∧ t = { s with v := t.v }

/-- From every state the instruction answers a next state in which VF holds the flag, Vx the result where Vx is not VF
itself, and nothing else has changed (the order of R10: the flag is written last). -/
def WritesVxThenVF (i : Instr) (x : Reg) (result flag : State → Byte) : Prop :=
  ∀ s, ∃ t, exec i s = .next t ∧ t.v[15] = flag s ∧ (x ≠ 15 → t.v[x] = result s) ∧
    (∀ r : Reg, r ≠ x → r ≠ 15 → t.v[r] = s.v[r]) ∧ t = { s with v := t.v }

/-- The sprite bit that DRW puts at column `cx`, row `cy`: set when the pixel lies in the sprite's 8 by `n` rectangle at
the wrapped origin and its bit of the sprite row is 1 (R86, R87). Pixels beyond the right and bottom edges do not exist,
which is the clipping. -/
def State.spriteBit (s : State) (x y : Reg) (n : Nibble) (cx cy : Nat) : Bool :=
  decide (s.v[x].toNat % 64 ≤ cx ∧ cx < s.v[x].toNat % 64 + 8 ∧
    s.v[y].toNat % 32 ≤ cy ∧ cy < s.v[y].toNat % 32 + n.toNat) &&
  (Memory.read s.mem ((s.i.toNat + (cy - s.v[y].toNat % 32)) % 4096)).getLsbD (7 - (cx - s.v[x].toNat % 64))

/-- The columns of the access matrix (R23). -/
inductive Part where
  | v | i | pc | stack | mem | dt | st | fb | dirty | keys | wait | fault
  deriving DecidableEq, Repr

/-- The two states hold the same in one column of the access matrix. -/
def SamePart (p : Part) (s t : State) : Prop :=
  match p with
  | .v => t.v = s.v
  | .i => t.i = s.i
  | .pc => t.pc = s.pc
  | .stack => t.stack = s.stack
  | .mem => t.mem = s.mem
  | .dt => t.dt = s.dt
  | .st => t.st = s.st
  | .fb => t.fb = s.fb
  | .dirty => t.dirty = s.dirty
  | .keys => t.keys = s.keys
  | .wait => t.wait = s.wait
  | .fault => t.fault = s.fault

/-- The W entries of an instruction's row of the access matrix (R23), FX18_TARGET being DT; the fetch's own advance of
PC is not among them. -/
def writesOf : Instr → List Part
  | .cls => [.fb, .dirty]
  | .ret => [.pc, .stack, .fault]
  | .sys _ => []
  | .jp _ => [.pc]
  | .call _ => [.pc, .stack]
  | .seImm _ _ => [.pc]
  | .sneImm _ _ => [.pc]
  | .seReg _ _ => [.pc]
  | .ldImm _ _ => [.v]
  | .addImm _ _ => [.v]
  | .ldReg _ _ => [.v]
  | .orReg _ _ => [.v]
  | .andReg _ _ => [.v]
  | .xorReg _ _ => [.v]
  | .addReg _ _ => [.v]
  | .subReg _ _ => [.v]
  | .shr _ _ => [.v]
  | .subnReg _ _ => [.v]
  | .shl _ _ => [.v]
  | .sneReg _ _ => [.pc]
  | .ldI _ => [.i]
  | .jpV0 _ => [.pc]
  | .rnd _ _ => [.v]
  | .drw _ _ _ => [.v, .fb, .dirty]
  | .skp _ => [.pc]
  | .sknp _ => [.pc]
  | .ldFromDt _ => [.v]
  | .ldKey _ => [.v, .pc, .wait]
  | .ldDt _ => [.dt]
  | .ldSt _ => [.dt]
  | .addI _ => [.i]
  | .ldF _ => [.i]
  | .ldB _ => [.mem]
  | .stBulk _ => [.i, .mem]
  | .ldBulk _ => [.v, .i]

/-- The instruction writes VF as a flag (the nine of R10's table) or may name VF as its destination (R10). -/
def mayWriteVF : Instr → Bool
  | .orReg _ _ => true
  | .andReg _ _ => true
  | .xorReg _ _ => true
  | .addReg _ _ => true
  | .subReg _ _ => true
  | .subnReg _ _ => true
  | .shr _ _ => true
  | .shl _ _ => true
  | .drw _ _ _ => true
  | .ldImm x _ => x == 15
  | .addImm x _ => x == 15
  | .ldReg x _ => x == 15
  | .rnd x _ => x == 15
  | .ldFromDt x => x == 15
  | .ldKey x => x == 15
  | .ldBulk x => x == 15
  | .cls => false
  | .ret => false
  | .sys _ => false
  | .jp _ => false
  | .call _ => false
  | .seImm _ _ => false
  | .sneImm _ _ => false
  | .seReg _ _ => false
  | .sneReg _ _ => false
  | .ldI _ => false
  | .jpV0 _ => false
  | .skp _ => false
  | .sknp _ => false
  | .ldDt _ => false
  | .ldSt _ => false
  | .addI _ => false
  | .ldF _ => false
  | .ldB _ => false
  | .stBulk _ => false

end Sys2Proof.Machine
end

