-- ==== Sys2Proof/Certificates/Slice0/Obligations.lean ====
section
/-! DEFINITION. The statements for the provers. In each statement about `exec`, the state given is the one after the
fetch's advance of PC (`pc` of the rules, pc0 + 2; log entry 13). A statement that reads memory after a store has the
canonical form of memory as its premise; `MemoryStaysCanonical` says that every operation keeps it. -/

open Sys2Proof Sys2Proof.Machine

/-! ### Encoding, fetch, step -/

/-- R43, R46, R88: every well-formed instruction's word decodes to it, with every operand at every value. -/
def Obligations.DecodeInvertsEncode : Prop :=
  ∀ i : Instr, i.WellFormed → decode (encode i) = .ok i

/-- R46, R42: a word that decodes to an instruction is that instruction's word: no bit of it is dropped. -/
def Obligations.EncodeInvertsDecode : Prop :=
  ∀ (w : Word) (i : Instr), decode w = .ok i → i.WellFormed ∧ encode i = w

/-- R47: the decoder refuses exactly the words of R47's table, each by its own name. -/
def Obligations.DecoderRefusesExactlyTheListedWords : Prop :=
  ∀ w : Word, (UnrecognisedWord w → decode w = .error (.unrecognised w)) ∧
    (¬ UnrecognisedWord w → ∃ i, decode w = .ok i)

/-- Words written out from R46's patterns, at least one for each family, and four unrecognised ones. -/
def Obligations.WordsOfEachFamilyDecode : Prop :=
  decode 0x00E0 = .ok .cls ∧ decode 0x00EE = .ok .ret ∧ decode 0x00E1 = .ok (.sys 0x0E1) ∧
  decode 0x1234 = .ok (.jp 0x234) ∧ decode 0x2210 = .ok (.call 0x210) ∧ decode 0x332A = .ok (.seImm 3 0x2A) ∧
  decode 0x432A = .ok (.sneImm 3 0x2A) ∧ decode 0x5120 = .ok (.seReg 1 2) ∧ decode 0x6A2C = .ok (.ldImm 0xA 0x2C) ∧
  decode 0x7220 = .ok (.addImm 2 0x20) ∧ decode 0x8126 = .ok (.shr 1 2) ∧ decode 0x812E = .ok (.shl 1 2) ∧
  decode 0x9120 = .ok (.sneReg 1 2) ∧ decode 0xA2F0 = .ok (.ldI 0x2F0) ∧ decode 0xBFFF = .ok (.jpV0 0xFFF) ∧
  decode 0xC30F = .ok (.rnd 3 0x0F) ∧ decode 0xD125 = .ok (.drw 1 2 5) ∧ decode 0xE5A1 = .ok (.sknp 5) ∧
  decode 0xF30A = .ok (.ldKey 3) ∧ decode 0xF155 = .ok (.stBulk 1) ∧ decode 0xF265 = .ok (.ldBulk 2) ∧
  decode 0x5121 = .error (.unrecognised 0x5121) ∧ decode 0x8AB9 = .error (.unrecognised 0x8AB9) ∧
  decode 0x912F = .error (.unrecognised 0x912F) ∧ decode 0xF01F = .error (.unrecognised 0xF01F)

/-- R31: the fetched word is the byte at PC times 256 plus the byte at the next address, each address reduced modulo
4096 by itself. -/
def Obligations.FetchIsBigEndian : Prop :=
  ∀ s : State, s.fetchWord.toNat =
    (Memory.read s.mem (s.pc.toNat % 4096)).toNat * 256 + (Memory.read s.mem ((s.pc.toNat + 1) % 4096)).toNat

/-- R45: under a fault the step does nothing; otherwise it runs the instruction the fetched word decodes to, from the
state whose PC has advanced by 2 modulo 65536 (decision D12). -/
def Obligations.StepRunsTheDecodedInstruction : Prop :=
  ∀ s : State, (s.fault ≠ none → step s = .next s) ∧
    ∀ i, s.fault = none → decode s.fetchWord = .ok i → step s = exec i { s with pc := s.pc + 2 }

/-- R89 with R47's table: a step on an unrecognised word only advances PC by 2. -/
def Obligations.UnrecognisedWordOnlyAdvancesPc : Prop :=
  ∀ s : State, s.fault = none → UnrecognisedWord s.fetchWord → step s = .next { s with pc := s.pc + 2 }

/-- R103, R89, R29, R40, R97: every operation of the host, the step among them, answers a next state from every state,
and so does every schedule of them. This is no claim that the core always goes on: StackUnderflow stops it (R90, R107
H10), and it is the model's own convention (log entry 4) to record that stop in FAULT of a next state, after which the
step has no effect, and not in the fault outcome of the host's interface. -/
def Obligations.EveryOperationAnswersANextState : Prop :=
  ∀ (ops : List HostOp) (s : State), ∃ t, runOps ops s = .next t

/-- R23: an instruction leaves every column of the access matrix alone that its row does not mark W. -/
def Obligations.AccessMatrixBoundsWrites : Prop :=
  ∀ (i : Instr) (s t : State), exec i s = .next t → ∀ p : Part, p ∉ writesOf i → SamePart p s t

/-- R10: VF changes in a step only by one of the nine flag writers or by an instruction whose destination may be VF. -/
def Obligations.OnlyFlagWritersAndDestinationsChangeVF : Prop :=
  ∀ s t : State, step s = .next t → t.v[15] ≠ s.v[15] → ∃ i, decode s.fetchWord = .ok i ∧ mayWriteVF i = true

/-! ### Control flow -/

/-- R51, R58: JP loads its operand; JP V0 the sum of its operand and V0, all 16 bits kept (decision D28). -/
def Obligations.JumpsLoadPc : Prop :=
  ∀ (nnn : Addr12) (s : State),
    (∃ t, exec (.jp nnn) s = .next t ∧ t.pc.toNat = nnn.toNat ∧ t = { s with pc := t.pc }) ∧
    (∃ t, exec (.jpV0 nnn) s = .next t ∧ t.pc.toNat = nnn.toNat + s.v[0].toNat ∧ t = { s with pc := t.pc })

/-- R52: CALL pushes the advanced PC (the spec's own inference, marked [derived] in R52) and jumps; it never fails,
however deep the stack is (decision D11). -/
def Obligations.CallPushesAdvancedPcAndJumps : Prop :=
  ∀ (nnn : Addr12) (s : State),
    ∃ t, exec (.call nnn) s = .next t ∧ t.stack = s.stack ++ [s.pc] ∧ t.pc.toNat = nnn.toNat ∧
      t = { s with stack := t.stack, pc := t.pc }

/-- R53: RET pops the newest entry into PC, or takes StackUnderflow on an empty stack, where nothing but FAULT is
written and the PC advance stands (R91, decision D10). -/
def Obligations.RetPopsOrTakesStackUnderflow : Prop :=
  ∀ s : State,
    (∀ st a, s.stack = st ++ [a] → exec .ret s = .next { s with stack := st, pc := a }) ∧
    (s.stack = [] → exec .ret s = .next { s with fault := some .stackUnderflow })

/-- R52, R53: a RET that finds the stack as a CALL left it returns to the instruction after the CALL and restores the
stack. -/
def Obligations.RetUndoesCall : Prop :=
  ∀ (nnn : Addr12) (s t u : State), exec (.call nnn) s = .next t → u.stack = t.stack →
    exec .ret u = .next { u with stack := s.stack, pc := s.pc }

/-- R54 to R57: the four compare-and-skips: PC moves on by a further 2 exactly when the condition holds. -/
def Obligations.CompareSkipsMovePcByTwo : Prop :=
  ∀ (x y : Reg) (kk : Byte) (s : State),
    exec (.seImm x kk) s = .next { s with pc := if s.v[x] = kk then s.pc + 2 else s.pc } ∧
    exec (.sneImm x kk) s = .next { s with pc := if s.v[x] ≠ kk then s.pc + 2 else s.pc } ∧
    exec (.seReg x y) s = .next { s with pc := if s.v[x] = s.v[y] then s.pc + 2 else s.pc } ∧
    exec (.sneReg x y) s = .next { s with pc := if s.v[x] ≠ s.v[y] then s.pc + 2 else s.pc }

/-- R88: SYS has no effect of its own, and a step on any word of family 0 but CLS and RET only advances PC by 2. -/
def Obligations.SysDoesNothing : Prop :=
  (∀ (nnn : Addr12) (s : State), exec (.sys nnn) s = .next s) ∧
  ∀ s : State, s.fault = none → s.fetchWord.toNat < 0x1000 → s.fetchWord ≠ 0x00E0 → s.fetchWord ≠ 0x00EE →
    step s = .next { s with pc := s.pc + 2 }

/-- R109: at a jump to its own address (the spec's end-of-run convention, decision D30) a step changes nothing. -/
def Obligations.SelfJumpStepsChangeNothing : Prop :=
  ∀ s : State, s.AtSelfJump → step s = .next s

/-! ### Register and arithmetic, random -/

/-- R59, R61: the immediate load and the copy write Vx and nothing else, VF included when it is not Vx. -/
def Obligations.LoadsWriteVxOnly : Prop :=
  ∀ (x y : Reg) (kk : Byte),
    WritesVx (.ldImm x kk) x (fun _ => kk) ∧ WritesVx (.ldReg x y) x (fun s => s.v[y])

/-- R60: ADD Vx, kk wraps modulo 256 and has no flag effect. -/
def Obligations.AddImmediateWrapsWithoutFlag : Prop :=
  ∀ (x : Reg) (kk : Byte), WritesVx (.addImm x kk) x (fun s => s.v[x] + kk)

/-- R62, R63, R64: the logic operations, each zeroing VF. -/
def Obligations.LogicOpsZeroVF : Prop :=
  ∀ x y : Reg,
    WritesVxThenVF (.orReg x y) x (fun s => s.v[x] ||| s.v[y]) (fun _ => 0) ∧
    WritesVxThenVF (.andReg x y) x (fun s => s.v[x] &&& s.v[y]) (fun _ => 0) ∧
    WritesVxThenVF (.xorReg x y) x (fun s => s.v[x] ^^^ s.v[y]) (fun _ => 0)

/-- R65: the sum modulo 256, VF the carry. -/
def Obligations.AddRegisterSetsCarry : Prop :=
  ∀ x y : Reg, WritesVxThenVF (.addReg x y) x (fun s => s.v[x] + s.v[y])
    (fun s => if s.v[x].toNat + s.v[y].toNat > 255 then 1 else 0)

/-- R66, R67: the two subtractions, VF is 1 exactly when there is no borrow. -/
def Obligations.SubtractionsSetNoBorrow : Prop :=
  ∀ x y : Reg,
    WritesVxThenVF (.subReg x y) x (fun s => s.v[x] - s.v[y]) (fun s => if s.v[x].toNat ≥ s.v[y].toNat then 1 else 0) ∧
    WritesVxThenVF (.subnReg x y) x (fun s => s.v[y] - s.v[x]) (fun s => if s.v[y].toNat ≥ s.v[x].toNat then 1 else 0)

/-- R68, R69: the shifts take their result from Vy and their flag from the OLD Vx. -/
def Obligations.ShiftsTakeVyAndFlagFromOldVx : Prop :=
  ∀ x y : Reg,
    WritesVxThenVF (.shr x y) x (fun s => s.v[y] >>> 1) (fun s => if s.v[x].getLsbD 0 then 1 else 0) ∧
    WritesVxThenVF (.shl x y) x (fun s => s.v[y] <<< 1) (fun s => if s.v[x].getLsbD 7 then 1 else 0)

/-- RND stores a byte from 1 to 255 ANDed with kk (R71, R72); so with kk = 0xFF the result is never 0, and with kk = 0
it is 0. Which byte is drawn is a free value: the statement holds for every choice of it. That the draw advances
`rndCount` is no rule of the spec: the counter is the model's own choice (log entry 2). -/
def Obligations.RndMasksANonzeroByte : Prop :=
  ∀ (x : Reg) (kk : Byte) (s : State), ∃ (t : State) (r : Byte),
    exec (.rnd x kk) s = .next t ∧ 1 ≤ r.toNat ∧ t.v[x] = r &&& kk ∧ (kk = 0xFF → t.v[x] ≠ 0) ∧
    (kk = 0 → t.v[x] = 0) ∧ (∀ q : Reg, q ≠ x → t.v[q] = s.v[q]) ∧
    t = { s with v := t.v, rndCount := s.rndCount + 1 }

/-! ### Index register and memory -/

/-- R73, R74: LD I loads its operand; ADD I adds Vx modulo 65536; no flag. -/
def Obligations.IndexLoadAndAdd : Prop :=
  (∀ (nnn : Addr12) (s : State),
    ∃ t, exec (.ldI nnn) s = .next t ∧ t.i.toNat = nnn.toNat ∧ t = { s with i := t.i }) ∧
  (∀ (x : Reg) (s : State),
    ∃ t, exec (.addI x) s = .next t ∧ t.i.toNat = (s.i.toNat + s.v[x].toNat) % 65536 ∧ t = { s with i := t.i })

/-- R75: LD F points I at FONT_BASE + 5 * Vx, the whole byte (decision D7), for every FONT_BASE in range. -/
def Obligations.FontAddressIsBasePlusFiveVx : Prop :=
  ∀ (x : Reg) (s : State), ∃ t, exec (.ldF x) s = .next t ∧
    t.i.toNat = Config.fontBase.val + 5 * s.v[x].toNat ∧ t = { s with i := t.i }

/-- R28, R75: with the font in place, whatever else memory holds, and Vx a digit, LD F points I at the five bytes of
that digit's glyph in FONT_DATA (decision D3), wherever FONT_BASE is. `FontIsInPlaceAtTheStartOfARun` says that reset and
a load meet the premise; a program can break it, the font being ordinary memory (R35). -/
def Obligations.FontAddressFindsTheGlyph : Prop :=
  ∀ (x : Reg) (s : State), s.FontInPlace → s.v[x].toNat ≤ 15 → ∃ t, exec (.ldF x) s = .next t ∧ t.FontInPlace ∧
    ∀ j < 5, Config.fontData[5 * s.v[x].toNat + j]? = some (Memory.read t.mem ((t.i.toNat + j) % 4096))

/-- R28, R104, R40: the font is in place after reset, and loading a ROM leaves it there, since a ROM starts at 0x200,
above every possible font. That a load is accepted in every state is the model's choice (log entry 14; R106). -/
def Obligations.FontIsInPlaceAtTheStartOfARun : Prop :=
  (∀ s : State, s.hostReset.FontInPlace) ∧
  ∀ (s t : State) (b : List Byte), s.MemCanonical → s.FontInPlace → s.romLoad b = .ok t → t.FontInPlace

/-- R76: LD B stores the three decimal digits at I, I + 1, I + 2, every other byte and all else unchanged, I included. -/
def Obligations.BcdStoresThreeDigits : Prop :=
  ∀ (x : Reg) (s : State), s.MemCanonical → ∃ t, exec (.ldB x) s = .next t ∧
    Memory.read t.mem (s.i.toNat % 4096) = BitVec.ofNat 8 (s.v[x].toNat / 100) ∧
    Memory.read t.mem ((s.i.toNat + 1) % 4096) = BitVec.ofNat 8 (s.v[x].toNat / 10 % 10) ∧
    Memory.read t.mem ((s.i.toNat + 2) % 4096) = BitVec.ofNat 8 (s.v[x].toNat % 10) ∧
    (∀ a, a ≠ s.i.toNat % 4096 → a ≠ (s.i.toNat + 1) % 4096 → a ≠ (s.i.toNat + 2) % 4096 →
      Memory.read t.mem a = Memory.read s.mem a) ∧
    t = { s with mem := t.mem }

/-- R77: the bulk store puts V0 to Vx at I to I + x and then advances I by x + 1; every other byte and all else is
unchanged. -/
def Obligations.BulkStoreWritesV0ToVx : Prop :=
  ∀ (x : Reg) (s : State), s.MemCanonical → ∃ t, exec (.stBulk x) s = .next t ∧
    (∀ r : Reg, r ≤ x → Memory.read t.mem ((s.i.toNat + r.val) % 4096) = s.v[r]) ∧
    (∀ a, (∀ r : Reg, r ≤ x → a ≠ (s.i.toNat + r.val) % 4096) → Memory.read t.mem a = Memory.read s.mem a) ∧
    t.i.toNat = (s.i.toNat + x.val + 1) % 65536 ∧ t = { s with i := t.i, mem := t.mem }

/-- R78: the bulk load reads V0 to Vx from I to I + x and then advances I by x + 1; the registers above Vx, memory and
all else are unchanged. -/
def Obligations.BulkLoadReadsV0ToVx : Prop :=
  ∀ (x : Reg) (s : State), ∃ t, exec (.ldBulk x) s = .next t ∧
    (∀ r : Reg, r ≤ x → t.v[r] = Memory.read s.mem ((s.i.toNat + r.val) % 4096)) ∧
    (∀ r : Reg, x < r → t.v[r] = s.v[r]) ∧
    t.i.toNat = (s.i.toNat + x.val + 1) % 65536 ∧ t = { s with v := t.v, i := t.i }

/-- R77, R78 (the source's test E8): registers stored by the bulk store come back by the bulk load from the same I,
whatever the registers hold in between. -/
def Obligations.BulkLoadUndoesBulkStore : Prop :=
  ∀ (x : Reg) (s t : State) (v : Vector Byte 16), s.MemCanonical → exec (.stBulk x) s = .next t →
    ∃ u, exec (.ldBulk x) { t with v := v, i := s.i } = .next u ∧
      (∀ r : Reg, r ≤ x → u.v[r] = s.v[r]) ∧ u.mem = t.mem ∧ u.i = t.i

/-- R38, R32: two registers stored over the next instruction are fetched as that instruction, the lower-numbered one
its high byte: a store is seen by the very next fetch. -/
def Obligations.StoredBytesAreFetchedNext : Prop :=
  ∀ (x q : Reg) (s t : State), s.MemCanonical → q < x →
    (s.i.toNat + q.val) % 4096 = s.pc.toNat % 4096 → exec (.stBulk x) s = .next t →
    t.fetchWord = Word.ofBytes s.v[q] s.v[q + 1]

/-! ### Keys and timers -/

/-- R79, R80: the key skips test the key named by the low four bits of Vx (decision D8). -/
def Obligations.KeySkipsTestTheNamedKey : Prop :=
  ∀ (x : Reg) (k : Key) (s : State), s.v[x].toNat % 16 = k.val →
    exec (.skp x) s = .next { s with pc := if s.keys[k] = true then s.pc + 2 else s.pc } ∧
    exec (.sknp x) s = .next { s with pc := if s.keys[k] = true then s.pc else s.pc + 2 }

/-- R81: the key-wait. With no key latched it rewinds, latching the lowest pressed key if there is one (decision D9);
with a key latched it rewinds while that key is down and, once it is up, delivers it and ends the wait. -/
def Obligations.KeyWaitPressThenRelease : Prop :=
  ∀ (x : Reg) (s : State),
    (s.wait = none → (∀ j : Key, s.keys[j] = false) → exec (.ldKey x) s = .next { s with pc := s.pc - 2 }) ∧
    (∀ k : Key, s.wait = none → s.keys[k] = true → (∀ j : Key, j < k → s.keys[j] = false) →
      exec (.ldKey x) s = .next { s with wait := some k, pc := s.pc - 2 }) ∧
    (∀ k : Key, s.wait = some k → s.keys[k] = true → exec (.ldKey x) s = .next { s with pc := s.pc - 2 }) ∧
    (∀ k : Key, s.wait = some k → s.keys[k] = false → ∃ t, exec (.ldKey x) s = .next t ∧
      t.v[x].toNat = k.val ∧ (∀ r : Reg, r ≠ x → t.v[r] = s.v[r]) ∧ t = { s with v := t.v, wait := none })

/-- R81: a step of the key-wait that neither latches nor completes leaves the whole state as it was, PC included, so
the same instruction runs again. -/
def Obligations.BlockedKeyWaitStepsChangeNothing : Prop :=
  ∀ (x : Reg) (s : State), s.fault = none → decode s.fetchWord = .ok (.ldKey x) →
    (s.wait = none ∧ (∀ j : Key, s.keys[j] = false)) ∨ (∃ k : Key, s.wait = some k ∧ s.keys[k] = true) →
    step s = .next s

/-- R19 (an invariant the spec marks as derived): whenever WAIT is some key, PC holds the address of a key-wait; every
operation of the host but a load keeps it, from every state that meets it (a load after the first step is outside the
host's duties, R106). -/
def Obligations.WaitStaysAtTheKeyWait : Prop :=
  ∀ (op : HostOp) (s t : State), (∀ bytes, op ≠ .romLoad bytes) → s.WaitAtKeyWait → applyOp op s = .next t →
    t.WaitAtKeyWait

/-- R82, R83, R84: LD Vx, DT reads DT; LD DT, Vx writes DT; LD ST, Vx writes DT too on this hardware (decision D6). -/
def Obligations.TimerInstructionsMoveDT : Prop :=
  ∀ (x : Reg) (s : State),
    WritesVx (.ldFromDt x) x (fun s => s.dt) ∧
    exec (.ldDt x) s = .next { s with dt := s.v[x] } ∧
    exec (.ldSt x) s = .next { s with dt := s.v[x] }

/-- R15 (marked derived there): ST never leaves 0, under any schedule of the host's operations, from every state in
which it is 0. -/
def Obligations.SoundTimerStaysZero : Prop :=
  ∀ (ops : List HostOp) (s t : State), s.st = 0 → runOps ops s = .next t → t.st = 0

/-- R96: a tick takes one from each timer that is not 0 and leaves a timer that is 0; nothing else changes. -/
def Obligations.TickCountsBothTimersDownToZero : Prop :=
  ∀ s : State,
    (0 < s.dt.toNat → s.tick.dt.toNat = s.dt.toNat - 1) ∧ (s.dt.toNat = 0 → s.tick.dt.toNat = 0) ∧
    (0 < s.st.toNat → s.tick.st.toNat = s.st.toNat - 1) ∧ (s.st.toNat = 0 → s.tick.st.toNat = 0) ∧
    s.tick = { s with dt := s.tick.dt, st := s.tick.st }

/-! ### Display -/

/-- R85: CLS makes every pixel false and DIRTY true (decision D18), and changes nothing else. -/
def Obligations.ClearScreenBlanksEveryPixel : Prop :=
  ∀ s : State, ∃ t, exec .cls s = .next t ∧ (∀ (cx : Fin 64) (cy : Fin 32), t.fb[cx][cy] = false) ∧
    t = { s with fb := t.fb, dirty := true }

/-- R86, R87: DRW XORs the clipped sprite at the wrapped origin into the framebuffer, sets VF exactly when a lit pixel
meets a set bit, sets DIRTY always, and changes nothing else, for every height, 0 included (decision D16), and with x
or y naming VF (decision D5). -/
def Obligations.DrawXorsClippedSpriteAndFlagsCollision : Prop :=
  ∀ (x y : Reg) (n : Nibble) (s : State), ∃ t, exec (.drw x y n) s = .next t ∧
    (∀ (cx : Fin 64) (cy : Fin 32), t.fb[cx][cy] = (s.fb[cx][cy] ^^ s.spriteBit x y n cx.val cy.val)) ∧
    ((∃ (cx : Fin 64) (cy : Fin 32), s.fb[cx][cy] = true ∧ s.spriteBit x y n cx.val cy.val = true) → t.v[15] = 1) ∧
    ((∀ (cx : Fin 64) (cy : Fin 32), s.fb[cx][cy] = true → s.spriteBit x y n cx.val cy.val = false) → t.v[15] = 0) ∧
    (∀ r : Reg, r ≠ 15 → t.v[r] = s.v[r]) ∧ t = { s with v := t.v, fb := t.fb, dirty := true }

/-- R86 corner case (i): drawing the same sprite at the same origin again restores the framebuffer, with VF 1 if the
sprite has a set bit on the screen and all those pixels were dark before the first draw. -/
def Obligations.DrawingTwiceRestoresTheScreen : Prop :=
  ∀ (x y : Reg) (n : Nibble) (s t : State), exec (.drw x y n) s = .next t →
    ∃ u, exec (.drw x y n) { t with v := s.v } = .next u ∧ u.fb = s.fb ∧
      ((∃ (cx : Fin 64) (cy : Fin 32), s.spriteBit x y n cx.val cy.val = true) →
        (∀ (cx : Fin 64) (cy : Fin 32), s.spriteBit x y n cx.val cy.val = true → s.fb[cx][cy] = false) →
        t.v[15] = 0 ∧ u.v[15] = 1)

/-! ### The fault, the host's operations, reset -/

/-- R90, R91: the one fault has the code 1; a step raises it exactly when it fetches RET with the stack empty, and then
PC has advanced by 2 and nothing else has changed (decision D10). -/
def Obligations.OnlyRetOnEmptyStackFaults : Prop :=
  Fault.code .stackUnderflow = 1 ∧
  ∀ s : State, s.fault = none →
    (s.fetchWord = 0x00EE → s.stack = [] →
      step s = .next { s with pc := s.pc + 2, fault := some .stackUnderflow }) ∧
    (∀ t, step s = .next t → t.fault ≠ none → s.fetchWord = 0x00EE ∧ s.stack = [])

/-- R92: under a fault the step has no effect, every operation but reset leaves FAULT as it is, tick, key_set, the
presentation reads and dirty_clear keep their effects (decision D26), and reset clears FAULT. -/
def Obligations.FaultStopsStepsButNotTheHost : Prop :=
  ∀ s : State, s.fault ≠ none →
    step s = .next s ∧
    (∀ op : HostOp, op ≠ .reset → ∃ t, applyOp op s = .next t ∧ t.fault = s.fault) ∧
    (∀ (k : Key) (b : Bool), (s.keySet k.val b).keys[k] = b) ∧
    (0 < s.dt.toNat → s.tick.dt.toNat = s.dt.toNat - 1) ∧ (0 < s.st.toNat → s.tick.st.toNat = s.st.toNat - 1) ∧
    s.fbRead = s.fb ∧ s.dirtyRead = s.dirty ∧ s.dirtyClear.dirty = false ∧ s.hostReset.fault = none

/-- A ROM of more than 3584 bytes is rejected and nothing changes; any other is loaded verbatim from 0x200, and no other
byte and no other state changes (R40). Two parts are not R40's plain words. That a load is accepted in every state, after
the first step too, is the model's choice (log entry 14): R106 calls a late load outside the host's duties and says that
no claim of the spec covers it. That the empty ROM is accepted and writes nothing is the spec's own inference (R40: "L = 0
is accepted and writes nothing [derived: 0 <= 3584]"). -/
def Obligations.RomLoadIsExactOrRejected : Prop :=
  ∀ (s : State) (b : List Byte), s.MemCanonical →
    (3584 < b.length → s.romLoad b = .error .romTooLarge ∧ applyOp (.romLoad b) s = .next s) ∧
    (b.length ≤ 3584 → ∃ t, s.romLoad b = .ok t ∧ applyOp (.romLoad b) s = .next t ∧
      (∀ j : Fin b.length, Memory.read t.mem (0x200 + j.val) = b[j]) ∧
      (∀ a, a < 0x200 ∨ 0x200 + b.length ≤ a → Memory.read t.mem a = Memory.read s.mem a) ∧
      t = { s with mem := t.mem })

/-- R97: key_set writes the one key its index names, and an index above 15 is ignored, whatever its width. -/
def Obligations.KeySetWritesOneKeyOrNothing : Prop :=
  ∀ (s : State) (idx : Nat) (pressed : Bool),
    (15 < idx → s.keySet idx pressed = s) ∧
    (∀ k : Key, k.val = idx → (s.keySet idx pressed).keys[k] = pressed ∧
      (∀ j : Key, j ≠ k → (s.keySet idx pressed).keys[j] = s.keys[j]) ∧
      s.keySet idx pressed = { s with keys := (s.keySet idx pressed).keys })

/-- R98, R99: the presentation and status reads give FB, DIRTY, ST, WAIT and the fault code, and dirty_clear makes
DIRTY false and changes nothing else. -/
def Obligations.PresentationAndStatusReads : Prop :=
  ∀ s : State, s.fbRead = s.fb ∧ s.dirtyRead = s.dirty ∧ applyOp .dirtyClear s = .next { s with dirty := false } ∧
    s.statusRead = (s.st, s.wait, match s.fault with | none => none | some .stackUnderflow => some 1)

/-- R104, R24: after reset PC is 0x200, the stack is empty, the font stands at FONT_BASE and every other byte of memory
is 0, and everything else is zero, false or none (the spec's decisions D2, D3, D4 and D10); and the reset operation
leaves State.reset but for the model's own draw counter, of which nothing is said. -/
def Obligations.ResetLeavesTheSpecifiedState : Prop :=
  ∀ s : State,
    s.hostReset.pc = 0x200 ∧ s.hostReset.stack = [] ∧
    (∀ j < 80, some (Memory.read s.hostReset.mem (Config.fontBase.val + j)) = Config.fontData[j]?) ∧
    (∀ a < 4096, a < Config.fontBase.val ∨ Config.fontBase.val + 80 ≤ a → Memory.read s.hostReset.mem a = 0) ∧
    (∀ r : Reg, s.hostReset.v[r] = 0) ∧ s.hostReset.i = 0 ∧ s.hostReset.dt = 0 ∧ s.hostReset.st = 0 ∧
    (∀ (cx : Fin 64) (cy : Fin 32), s.hostReset.fb[cx][cy] = false) ∧ s.hostReset.dirty = false ∧
    (∀ k : Key, s.hostReset.keys[k] = false) ∧ s.hostReset.wait = none ∧ s.hostReset.fault = none ∧
    ∃ c : Nat, s.hostReset = { State.reset with rndCount := c }

/-- The state after reset meets the invariants that the statements about every step take as premises. -/
def Obligations.ResetMeetsTheInvariants : Prop :=
  State.reset.MemCanonical ∧ State.reset.WaitAtKeyWait ∧ State.reset.Safe ∧ State.reset.st = 0

/-- Every operation of the host, the step among them, keeps memory in its canonical form (addresses rising and below
4096, R26; no cell listed that reads as the reset contents), from every state that has it. The form is the model's own
(log entry 5). -/
def Obligations.MemoryStaysCanonical : Prop :=
  ∀ (op : HostOp) (s t : State), s.MemCanonical → applyOp op s = .next t → t.MemCanonical
end

