-- ==== Sys2Proof/Laws/State.lean ====
section
/-! SUPPORT. What each update of the state does to each field: one lemma per field per update, so that no later proof
unfolds a record update. The readers `getV`, `readByte` and `keyDown` through every update stand at the end. -/

namespace Sys2Proof.Machine

variable (s : State)

/-! ### setV -/

@[simp] theorem State.setV_v (x : Reg) (b : Byte) : (s.setV x b).v = s.v.set x.val b := rfl
@[simp] theorem State.setV_i (x : Reg) (b : Byte) : (s.setV x b).i = s.i := rfl
@[simp] theorem State.setV_pc (x : Reg) (b : Byte) : (s.setV x b).pc = s.pc := rfl
@[simp] theorem State.setV_stack (x : Reg) (b : Byte) : (s.setV x b).stack = s.stack := rfl
@[simp] theorem State.setV_mem (x : Reg) (b : Byte) : (s.setV x b).mem = s.mem := rfl
@[simp] theorem State.setV_dt (x : Reg) (b : Byte) : (s.setV x b).dt = s.dt := rfl
@[simp] theorem State.setV_st (x : Reg) (b : Byte) : (s.setV x b).st = s.st := rfl
@[simp] theorem State.setV_fb (x : Reg) (b : Byte) : (s.setV x b).fb = s.fb := rfl
@[simp] theorem State.setV_dirty (x : Reg) (b : Byte) : (s.setV x b).dirty = s.dirty := rfl
@[simp] theorem State.setV_keys (x : Reg) (b : Byte) : (s.setV x b).keys = s.keys := rfl
@[simp] theorem State.setV_wait (x : Reg) (b : Byte) : (s.setV x b).wait = s.wait := rfl
@[simp] theorem State.setV_fault (x : Reg) (b : Byte) : (s.setV x b).fault = s.fault := rfl
@[simp] theorem State.setV_rndCount (x : Reg) (b : Byte) : (s.setV x b).rndCount = s.rndCount := rfl

/-! ### setI -/

@[simp] theorem State.setI_v (a : Word) : (s.setI a).v = s.v := rfl
@[simp] theorem State.setI_i (a : Word) : (s.setI a).i = a := rfl
@[simp] theorem State.setI_pc (a : Word) : (s.setI a).pc = s.pc := rfl
@[simp] theorem State.setI_stack (a : Word) : (s.setI a).stack = s.stack := rfl
@[simp] theorem State.setI_mem (a : Word) : (s.setI a).mem = s.mem := rfl
@[simp] theorem State.setI_dt (a : Word) : (s.setI a).dt = s.dt := rfl
@[simp] theorem State.setI_st (a : Word) : (s.setI a).st = s.st := rfl
@[simp] theorem State.setI_fb (a : Word) : (s.setI a).fb = s.fb := rfl
@[simp] theorem State.setI_dirty (a : Word) : (s.setI a).dirty = s.dirty := rfl
@[simp] theorem State.setI_keys (a : Word) : (s.setI a).keys = s.keys := rfl
@[simp] theorem State.setI_wait (a : Word) : (s.setI a).wait = s.wait := rfl
@[simp] theorem State.setI_fault (a : Word) : (s.setI a).fault = s.fault := rfl
@[simp] theorem State.setI_rndCount (a : Word) : (s.setI a).rndCount = s.rndCount := rfl

/-! ### setPc -/

@[simp] theorem State.setPc_v (a : Word) : (s.setPc a).v = s.v := rfl
@[simp] theorem State.setPc_i (a : Word) : (s.setPc a).i = s.i := rfl
@[simp] theorem State.setPc_pc (a : Word) : (s.setPc a).pc = a := rfl
@[simp] theorem State.setPc_stack (a : Word) : (s.setPc a).stack = s.stack := rfl
@[simp] theorem State.setPc_mem (a : Word) : (s.setPc a).mem = s.mem := rfl
@[simp] theorem State.setPc_dt (a : Word) : (s.setPc a).dt = s.dt := rfl
@[simp] theorem State.setPc_st (a : Word) : (s.setPc a).st = s.st := rfl
@[simp] theorem State.setPc_fb (a : Word) : (s.setPc a).fb = s.fb := rfl
@[simp] theorem State.setPc_dirty (a : Word) : (s.setPc a).dirty = s.dirty := rfl
@[simp] theorem State.setPc_keys (a : Word) : (s.setPc a).keys = s.keys := rfl
@[simp] theorem State.setPc_wait (a : Word) : (s.setPc a).wait = s.wait := rfl
@[simp] theorem State.setPc_fault (a : Word) : (s.setPc a).fault = s.fault := rfl
@[simp] theorem State.setPc_rndCount (a : Word) : (s.setPc a).rndCount = s.rndCount := rfl

/-! ### advance -/

@[simp] theorem State.advance_v : (s.advance).v = s.v := rfl
@[simp] theorem State.advance_i : (s.advance).i = s.i := rfl
@[simp] theorem State.advance_pc : (s.advance).pc = s.pc + 2 := rfl
@[simp] theorem State.advance_stack : (s.advance).stack = s.stack := rfl
@[simp] theorem State.advance_mem : (s.advance).mem = s.mem := rfl
@[simp] theorem State.advance_dt : (s.advance).dt = s.dt := rfl
@[simp] theorem State.advance_st : (s.advance).st = s.st := rfl
@[simp] theorem State.advance_fb : (s.advance).fb = s.fb := rfl
@[simp] theorem State.advance_dirty : (s.advance).dirty = s.dirty := rfl
@[simp] theorem State.advance_keys : (s.advance).keys = s.keys := rfl
@[simp] theorem State.advance_wait : (s.advance).wait = s.wait := rfl
@[simp] theorem State.advance_fault : (s.advance).fault = s.fault := rfl
@[simp] theorem State.advance_rndCount : (s.advance).rndCount = s.rndCount := rfl

/-! ### rewind -/

@[simp] theorem State.rewind_v : (s.rewind).v = s.v := rfl
@[simp] theorem State.rewind_i : (s.rewind).i = s.i := rfl
@[simp] theorem State.rewind_pc : (s.rewind).pc = s.pc - 2 := rfl
@[simp] theorem State.rewind_stack : (s.rewind).stack = s.stack := rfl
@[simp] theorem State.rewind_mem : (s.rewind).mem = s.mem := rfl
@[simp] theorem State.rewind_dt : (s.rewind).dt = s.dt := rfl
@[simp] theorem State.rewind_st : (s.rewind).st = s.st := rfl
@[simp] theorem State.rewind_fb : (s.rewind).fb = s.fb := rfl
@[simp] theorem State.rewind_dirty : (s.rewind).dirty = s.dirty := rfl
@[simp] theorem State.rewind_keys : (s.rewind).keys = s.keys := rfl
@[simp] theorem State.rewind_wait : (s.rewind).wait = s.wait := rfl
@[simp] theorem State.rewind_fault : (s.rewind).fault = s.fault := rfl
@[simp] theorem State.rewind_rndCount : (s.rewind).rndCount = s.rndCount := rfl

/-! ### push -/

@[simp] theorem State.push_v (a : Word) : (s.push a).v = s.v := rfl
@[simp] theorem State.push_i (a : Word) : (s.push a).i = s.i := rfl
@[simp] theorem State.push_pc (a : Word) : (s.push a).pc = s.pc := rfl
@[simp] theorem State.push_stack (a : Word) : (s.push a).stack = s.stack ++ [a] := rfl
@[simp] theorem State.push_mem (a : Word) : (s.push a).mem = s.mem := rfl
@[simp] theorem State.push_dt (a : Word) : (s.push a).dt = s.dt := rfl
@[simp] theorem State.push_st (a : Word) : (s.push a).st = s.st := rfl
@[simp] theorem State.push_fb (a : Word) : (s.push a).fb = s.fb := rfl
@[simp] theorem State.push_dirty (a : Word) : (s.push a).dirty = s.dirty := rfl
@[simp] theorem State.push_keys (a : Word) : (s.push a).keys = s.keys := rfl
@[simp] theorem State.push_wait (a : Word) : (s.push a).wait = s.wait := rfl
@[simp] theorem State.push_fault (a : Word) : (s.push a).fault = s.fault := rfl
@[simp] theorem State.push_rndCount (a : Word) : (s.push a).rndCount = s.rndCount := rfl

/-! ### raise -/

@[simp] theorem State.raise_v (f : Fault) : (s.raise f).v = s.v := rfl
@[simp] theorem State.raise_i (f : Fault) : (s.raise f).i = s.i := rfl
@[simp] theorem State.raise_pc (f : Fault) : (s.raise f).pc = s.pc := rfl
@[simp] theorem State.raise_stack (f : Fault) : (s.raise f).stack = s.stack := rfl
@[simp] theorem State.raise_mem (f : Fault) : (s.raise f).mem = s.mem := rfl
@[simp] theorem State.raise_dt (f : Fault) : (s.raise f).dt = s.dt := rfl
@[simp] theorem State.raise_st (f : Fault) : (s.raise f).st = s.st := rfl
@[simp] theorem State.raise_fb (f : Fault) : (s.raise f).fb = s.fb := rfl
@[simp] theorem State.raise_dirty (f : Fault) : (s.raise f).dirty = s.dirty := rfl
@[simp] theorem State.raise_keys (f : Fault) : (s.raise f).keys = s.keys := rfl
@[simp] theorem State.raise_wait (f : Fault) : (s.raise f).wait = s.wait := rfl
@[simp] theorem State.raise_fault (f : Fault) : (s.raise f).fault = some f := rfl
@[simp] theorem State.raise_rndCount (f : Fault) : (s.raise f).rndCount = s.rndCount := rfl

/-! ### setDt -/

@[simp] theorem State.setDt_v (b : Byte) : (s.setDt b).v = s.v := rfl
@[simp] theorem State.setDt_i (b : Byte) : (s.setDt b).i = s.i := rfl
@[simp] theorem State.setDt_pc (b : Byte) : (s.setDt b).pc = s.pc := rfl
@[simp] theorem State.setDt_stack (b : Byte) : (s.setDt b).stack = s.stack := rfl
@[simp] theorem State.setDt_mem (b : Byte) : (s.setDt b).mem = s.mem := rfl
@[simp] theorem State.setDt_dt (b : Byte) : (s.setDt b).dt = b := rfl
@[simp] theorem State.setDt_st (b : Byte) : (s.setDt b).st = s.st := rfl
@[simp] theorem State.setDt_fb (b : Byte) : (s.setDt b).fb = s.fb := rfl
@[simp] theorem State.setDt_dirty (b : Byte) : (s.setDt b).dirty = s.dirty := rfl
@[simp] theorem State.setDt_keys (b : Byte) : (s.setDt b).keys = s.keys := rfl
@[simp] theorem State.setDt_wait (b : Byte) : (s.setDt b).wait = s.wait := rfl
@[simp] theorem State.setDt_fault (b : Byte) : (s.setDt b).fault = s.fault := rfl
@[simp] theorem State.setDt_rndCount (b : Byte) : (s.setDt b).rndCount = s.rndCount := rfl

/-! ### setSt -/

@[simp] theorem State.setSt_v (b : Byte) : (s.setSt b).v = s.v := rfl
@[simp] theorem State.setSt_i (b : Byte) : (s.setSt b).i = s.i := rfl
@[simp] theorem State.setSt_pc (b : Byte) : (s.setSt b).pc = s.pc := rfl
@[simp] theorem State.setSt_stack (b : Byte) : (s.setSt b).stack = s.stack := rfl
@[simp] theorem State.setSt_mem (b : Byte) : (s.setSt b).mem = s.mem := rfl
@[simp] theorem State.setSt_dt (b : Byte) : (s.setSt b).dt = s.dt := rfl
@[simp] theorem State.setSt_st (b : Byte) : (s.setSt b).st = b := rfl
@[simp] theorem State.setSt_fb (b : Byte) : (s.setSt b).fb = s.fb := rfl
@[simp] theorem State.setSt_dirty (b : Byte) : (s.setSt b).dirty = s.dirty := rfl
@[simp] theorem State.setSt_keys (b : Byte) : (s.setSt b).keys = s.keys := rfl
@[simp] theorem State.setSt_wait (b : Byte) : (s.setSt b).wait = s.wait := rfl
@[simp] theorem State.setSt_fault (b : Byte) : (s.setSt b).fault = s.fault := rfl
@[simp] theorem State.setSt_rndCount (b : Byte) : (s.setSt b).rndCount = s.rndCount := rfl

/-! ### present -/

@[simp] theorem State.present_v (fb : Framebuffer) : (s.present fb).v = s.v := rfl
@[simp] theorem State.present_i (fb : Framebuffer) : (s.present fb).i = s.i := rfl
@[simp] theorem State.present_pc (fb : Framebuffer) : (s.present fb).pc = s.pc := rfl
@[simp] theorem State.present_stack (fb : Framebuffer) : (s.present fb).stack = s.stack := rfl
@[simp] theorem State.present_mem (fb : Framebuffer) : (s.present fb).mem = s.mem := rfl
@[simp] theorem State.present_dt (fb : Framebuffer) : (s.present fb).dt = s.dt := rfl
@[simp] theorem State.present_st (fb : Framebuffer) : (s.present fb).st = s.st := rfl
@[simp] theorem State.present_fb (fb : Framebuffer) : (s.present fb).fb = fb := rfl
@[simp] theorem State.present_dirty (fb : Framebuffer) : (s.present fb).dirty = true := rfl
@[simp] theorem State.present_keys (fb : Framebuffer) : (s.present fb).keys = s.keys := rfl
@[simp] theorem State.present_wait (fb : Framebuffer) : (s.present fb).wait = s.wait := rfl
@[simp] theorem State.present_fault (fb : Framebuffer) : (s.present fb).fault = s.fault := rfl
@[simp] theorem State.present_rndCount (fb : Framebuffer) : (s.present fb).rndCount = s.rndCount := rfl

/-! ### setKey -/

@[simp] theorem State.setKey_v (k : Key) (b : Bool) : (s.setKey k b).v = s.v := rfl
@[simp] theorem State.setKey_i (k : Key) (b : Bool) : (s.setKey k b).i = s.i := rfl
@[simp] theorem State.setKey_pc (k : Key) (b : Bool) : (s.setKey k b).pc = s.pc := rfl
@[simp] theorem State.setKey_stack (k : Key) (b : Bool) : (s.setKey k b).stack = s.stack := rfl
@[simp] theorem State.setKey_mem (k : Key) (b : Bool) : (s.setKey k b).mem = s.mem := rfl
@[simp] theorem State.setKey_dt (k : Key) (b : Bool) : (s.setKey k b).dt = s.dt := rfl
@[simp] theorem State.setKey_st (k : Key) (b : Bool) : (s.setKey k b).st = s.st := rfl
@[simp] theorem State.setKey_fb (k : Key) (b : Bool) : (s.setKey k b).fb = s.fb := rfl
@[simp] theorem State.setKey_dirty (k : Key) (b : Bool) : (s.setKey k b).dirty = s.dirty := rfl
@[simp] theorem State.setKey_keys (k : Key) (b : Bool) : (s.setKey k b).keys = s.keys.set k.val b := rfl
@[simp] theorem State.setKey_wait (k : Key) (b : Bool) : (s.setKey k b).wait = s.wait := rfl
@[simp] theorem State.setKey_fault (k : Key) (b : Bool) : (s.setKey k b).fault = s.fault := rfl
@[simp] theorem State.setKey_rndCount (k : Key) (b : Bool) : (s.setKey k b).rndCount = s.rndCount := rfl

/-! ### setWait -/

@[simp] theorem State.setWait_v (w : Option Key) : (s.setWait w).v = s.v := rfl
@[simp] theorem State.setWait_i (w : Option Key) : (s.setWait w).i = s.i := rfl
@[simp] theorem State.setWait_pc (w : Option Key) : (s.setWait w).pc = s.pc := rfl
@[simp] theorem State.setWait_stack (w : Option Key) : (s.setWait w).stack = s.stack := rfl
@[simp] theorem State.setWait_mem (w : Option Key) : (s.setWait w).mem = s.mem := rfl
@[simp] theorem State.setWait_dt (w : Option Key) : (s.setWait w).dt = s.dt := rfl
@[simp] theorem State.setWait_st (w : Option Key) : (s.setWait w).st = s.st := rfl
@[simp] theorem State.setWait_fb (w : Option Key) : (s.setWait w).fb = s.fb := rfl
@[simp] theorem State.setWait_dirty (w : Option Key) : (s.setWait w).dirty = s.dirty := rfl
@[simp] theorem State.setWait_keys (w : Option Key) : (s.setWait w).keys = s.keys := rfl
@[simp] theorem State.setWait_wait (w : Option Key) : (s.setWait w).wait = w := rfl
@[simp] theorem State.setWait_fault (w : Option Key) : (s.setWait w).fault = s.fault := rfl
@[simp] theorem State.setWait_rndCount (w : Option Key) : (s.setWait w).rndCount = s.rndCount := rfl

/-! ### drawn -/

@[simp] theorem State.drawn_v : (s.drawn).v = s.v := rfl
@[simp] theorem State.drawn_i : (s.drawn).i = s.i := rfl
@[simp] theorem State.drawn_pc : (s.drawn).pc = s.pc := rfl
@[simp] theorem State.drawn_stack : (s.drawn).stack = s.stack := rfl
@[simp] theorem State.drawn_mem : (s.drawn).mem = s.mem := rfl
@[simp] theorem State.drawn_dt : (s.drawn).dt = s.dt := rfl
@[simp] theorem State.drawn_st : (s.drawn).st = s.st := rfl
@[simp] theorem State.drawn_fb : (s.drawn).fb = s.fb := rfl
@[simp] theorem State.drawn_dirty : (s.drawn).dirty = s.dirty := rfl
@[simp] theorem State.drawn_keys : (s.drawn).keys = s.keys := rfl
@[simp] theorem State.drawn_wait : (s.drawn).wait = s.wait := rfl
@[simp] theorem State.drawn_fault : (s.drawn).fault = s.fault := rfl
@[simp] theorem State.drawn_rndCount : (s.drawn).rndCount = s.rndCount + 1 := rfl

/-! ### writeByte -/

@[simp] theorem State.writeByte_v (a : Word) (w : Byte) : (s.writeByte a w).v = s.v := rfl
@[simp] theorem State.writeByte_i (a : Word) (w : Byte) : (s.writeByte a w).i = s.i := rfl
@[simp] theorem State.writeByte_pc (a : Word) (w : Byte) : (s.writeByte a w).pc = s.pc := rfl
@[simp] theorem State.writeByte_stack (a : Word) (w : Byte) : (s.writeByte a w).stack = s.stack := rfl
@[simp] theorem State.writeByte_mem (a : Word) (w : Byte) : (s.writeByte a w).mem = Memory.write s.mem (phys a) w := rfl
@[simp] theorem State.writeByte_dt (a : Word) (w : Byte) : (s.writeByte a w).dt = s.dt := rfl
@[simp] theorem State.writeByte_st (a : Word) (w : Byte) : (s.writeByte a w).st = s.st := rfl
@[simp] theorem State.writeByte_fb (a : Word) (w : Byte) : (s.writeByte a w).fb = s.fb := rfl
@[simp] theorem State.writeByte_dirty (a : Word) (w : Byte) : (s.writeByte a w).dirty = s.dirty := rfl
@[simp] theorem State.writeByte_keys (a : Word) (w : Byte) : (s.writeByte a w).keys = s.keys := rfl
@[simp] theorem State.writeByte_wait (a : Word) (w : Byte) : (s.writeByte a w).wait = s.wait := rfl
@[simp] theorem State.writeByte_fault (a : Word) (w : Byte) : (s.writeByte a w).fault = s.fault := rfl
@[simp] theorem State.writeByte_rndCount (a : Word) (w : Byte) : (s.writeByte a w).rndCount = s.rndCount := rfl

/-! ### skipIf and setTimer -/

@[simp] theorem State.skipIf_v (c : Bool) : (s.skipIf c).v = s.v := by cases c <;> rfl
@[simp] theorem State.skipIf_i (c : Bool) : (s.skipIf c).i = s.i := by cases c <;> rfl
@[simp] theorem State.skipIf_pc (c : Bool) : (s.skipIf c).pc = if c then s.pc + 2 else s.pc := by
  cases c <;> rfl
@[simp] theorem State.skipIf_stack (c : Bool) : (s.skipIf c).stack = s.stack := by cases c <;> rfl
@[simp] theorem State.skipIf_mem (c : Bool) : (s.skipIf c).mem = s.mem := by cases c <;> rfl
@[simp] theorem State.skipIf_dt (c : Bool) : (s.skipIf c).dt = s.dt := by cases c <;> rfl
@[simp] theorem State.skipIf_st (c : Bool) : (s.skipIf c).st = s.st := by cases c <;> rfl
@[simp] theorem State.skipIf_fb (c : Bool) : (s.skipIf c).fb = s.fb := by cases c <;> rfl
@[simp] theorem State.skipIf_dirty (c : Bool) : (s.skipIf c).dirty = s.dirty := by cases c <;> rfl
@[simp] theorem State.skipIf_keys (c : Bool) : (s.skipIf c).keys = s.keys := by cases c <;> rfl
@[simp] theorem State.skipIf_wait (c : Bool) : (s.skipIf c).wait = s.wait := by cases c <;> rfl
@[simp] theorem State.skipIf_fault (c : Bool) : (s.skipIf c).fault = s.fault := by cases c <;> rfl
@[simp] theorem State.skipIf_rndCount (c : Bool) : (s.skipIf c).rndCount = s.rndCount := by cases c <;> rfl

@[simp] theorem State.setTimer_v (t : Config.TimerTarget) (b : Byte) : (s.setTimer t b).v = s.v := by
  cases t <;> rfl
@[simp] theorem State.setTimer_i (t : Config.TimerTarget) (b : Byte) : (s.setTimer t b).i = s.i := by
  cases t <;> rfl
@[simp] theorem State.setTimer_pc (t : Config.TimerTarget) (b : Byte) : (s.setTimer t b).pc = s.pc := by
  cases t <;> rfl
@[simp] theorem State.setTimer_stack (t : Config.TimerTarget) (b : Byte) : (s.setTimer t b).stack = s.stack := by
  cases t <;> rfl
@[simp] theorem State.setTimer_mem (t : Config.TimerTarget) (b : Byte) : (s.setTimer t b).mem = s.mem := by
  cases t <;> rfl
@[simp] theorem State.setTimer_dt (t : Config.TimerTarget) (b : Byte) :
    (s.setTimer t b).dt = if t = .dt then b else s.dt := by cases t <;> rfl
@[simp] theorem State.setTimer_st (t : Config.TimerTarget) (b : Byte) :
    (s.setTimer t b).st = if t = .st then b else s.st := by cases t <;> rfl
@[simp] theorem State.setTimer_fb (t : Config.TimerTarget) (b : Byte) : (s.setTimer t b).fb = s.fb := by
  cases t <;> rfl
@[simp] theorem State.setTimer_dirty (t : Config.TimerTarget) (b : Byte) : (s.setTimer t b).dirty = s.dirty := by
  cases t <;> rfl
@[simp] theorem State.setTimer_keys (t : Config.TimerTarget) (b : Byte) : (s.setTimer t b).keys = s.keys := by
  cases t <;> rfl
@[simp] theorem State.setTimer_wait (t : Config.TimerTarget) (b : Byte) : (s.setTimer t b).wait = s.wait := by
  cases t <;> rfl
@[simp] theorem State.setTimer_fault (t : Config.TimerTarget) (b : Byte) : (s.setTimer t b).fault = s.fault := by
  cases t <;> rfl
@[simp] theorem State.setTimer_rndCount (t : Config.TimerTarget) (b : Byte) : (s.setTimer t b).rndCount = s.rndCount := by
  cases t <;> rfl

/-! ### setVWithFlag -/

@[simp] theorem State.setVWithFlag_v (x : Reg) (r f : Byte) :
    (s.setVWithFlag x r f).v = (s.v.set x.val r).set 15 f := rfl
@[simp] theorem State.setVWithFlag_i (x : Reg) (r f : Byte) : (s.setVWithFlag x r f).i = s.i := rfl
@[simp] theorem State.setVWithFlag_pc (x : Reg) (r f : Byte) : (s.setVWithFlag x r f).pc = s.pc := rfl
@[simp] theorem State.setVWithFlag_stack (x : Reg) (r f : Byte) : (s.setVWithFlag x r f).stack = s.stack := rfl
@[simp] theorem State.setVWithFlag_mem (x : Reg) (r f : Byte) : (s.setVWithFlag x r f).mem = s.mem := rfl
@[simp] theorem State.setVWithFlag_dt (x : Reg) (r f : Byte) : (s.setVWithFlag x r f).dt = s.dt := rfl
@[simp] theorem State.setVWithFlag_st (x : Reg) (r f : Byte) : (s.setVWithFlag x r f).st = s.st := rfl
@[simp] theorem State.setVWithFlag_fb (x : Reg) (r f : Byte) : (s.setVWithFlag x r f).fb = s.fb := rfl
@[simp] theorem State.setVWithFlag_dirty (x : Reg) (r f : Byte) : (s.setVWithFlag x r f).dirty = s.dirty := rfl
@[simp] theorem State.setVWithFlag_keys (x : Reg) (r f : Byte) : (s.setVWithFlag x r f).keys = s.keys := rfl
@[simp] theorem State.setVWithFlag_wait (x : Reg) (r f : Byte) : (s.setVWithFlag x r f).wait = s.wait := rfl
@[simp] theorem State.setVWithFlag_fault (x : Reg) (r f : Byte) : (s.setVWithFlag x r f).fault = s.fault := rfl
@[simp] theorem State.setVWithFlag_rndCount (x : Reg) (r f : Byte) : (s.setVWithFlag x r f).rndCount = s.rndCount := rfl

/-! ### The readers through the updates -/

@[simp] theorem State.readByte_setV (x : Reg) (b : Byte) (c : Word) : (s.setV x b).readByte c = s.readByte c := rfl
@[simp] theorem State.keyDown_setV (x : Reg) (b : Byte) (k' : Key) : (s.setV x b).keyDown k' = s.keyDown k' := rfl
@[simp] theorem State.getV_setI (a : Word) (r : Reg) : (s.setI a).getV r = s.getV r := rfl
@[simp] theorem State.readByte_setI (a : Word) (c : Word) : (s.setI a).readByte c = s.readByte c := rfl
@[simp] theorem State.keyDown_setI (a : Word) (k' : Key) : (s.setI a).keyDown k' = s.keyDown k' := rfl
@[simp] theorem State.getV_setPc (a : Word) (r : Reg) : (s.setPc a).getV r = s.getV r := rfl
@[simp] theorem State.readByte_setPc (a : Word) (c : Word) : (s.setPc a).readByte c = s.readByte c := rfl
@[simp] theorem State.keyDown_setPc (a : Word) (k' : Key) : (s.setPc a).keyDown k' = s.keyDown k' := rfl
@[simp] theorem State.getV_advance (r : Reg) : (s.advance).getV r = s.getV r := rfl
@[simp] theorem State.readByte_advance (c : Word) : (s.advance).readByte c = s.readByte c := rfl
@[simp] theorem State.keyDown_advance (k' : Key) : (s.advance).keyDown k' = s.keyDown k' := rfl
@[simp] theorem State.getV_rewind (r : Reg) : (s.rewind).getV r = s.getV r := rfl
@[simp] theorem State.readByte_rewind (c : Word) : (s.rewind).readByte c = s.readByte c := rfl
@[simp] theorem State.keyDown_rewind (k' : Key) : (s.rewind).keyDown k' = s.keyDown k' := rfl
@[simp] theorem State.getV_push (a : Word) (r : Reg) : (s.push a).getV r = s.getV r := rfl
@[simp] theorem State.readByte_push (a : Word) (c : Word) : (s.push a).readByte c = s.readByte c := rfl
@[simp] theorem State.keyDown_push (a : Word) (k' : Key) : (s.push a).keyDown k' = s.keyDown k' := rfl
@[simp] theorem State.getV_raise (f : Fault) (r : Reg) : (s.raise f).getV r = s.getV r := rfl
@[simp] theorem State.readByte_raise (f : Fault) (c : Word) : (s.raise f).readByte c = s.readByte c := rfl
@[simp] theorem State.keyDown_raise (f : Fault) (k' : Key) : (s.raise f).keyDown k' = s.keyDown k' := rfl
@[simp] theorem State.getV_setDt (b : Byte) (r : Reg) : (s.setDt b).getV r = s.getV r := rfl
@[simp] theorem State.readByte_setDt (b : Byte) (c : Word) : (s.setDt b).readByte c = s.readByte c := rfl
@[simp] theorem State.keyDown_setDt (b : Byte) (k' : Key) : (s.setDt b).keyDown k' = s.keyDown k' := rfl
@[simp] theorem State.getV_setSt (b : Byte) (r : Reg) : (s.setSt b).getV r = s.getV r := rfl
@[simp] theorem State.readByte_setSt (b : Byte) (c : Word) : (s.setSt b).readByte c = s.readByte c := rfl
@[simp] theorem State.keyDown_setSt (b : Byte) (k' : Key) : (s.setSt b).keyDown k' = s.keyDown k' := rfl
@[simp] theorem State.getV_present (fb : Framebuffer) (r : Reg) : (s.present fb).getV r = s.getV r := rfl
@[simp] theorem State.readByte_present (fb : Framebuffer) (c : Word) : (s.present fb).readByte c = s.readByte c := rfl
@[simp] theorem State.keyDown_present (fb : Framebuffer) (k' : Key) : (s.present fb).keyDown k' = s.keyDown k' := rfl
@[simp] theorem State.getV_setKey (k : Key) (b : Bool) (r : Reg) : (s.setKey k b).getV r = s.getV r := rfl
@[simp] theorem State.readByte_setKey (k : Key) (b : Bool) (c : Word) : (s.setKey k b).readByte c = s.readByte c := rfl
@[simp] theorem State.getV_setWait (w : Option Key) (r : Reg) : (s.setWait w).getV r = s.getV r := rfl
@[simp] theorem State.readByte_setWait (w : Option Key) (c : Word) : (s.setWait w).readByte c = s.readByte c := rfl
@[simp] theorem State.keyDown_setWait (w : Option Key) (k' : Key) : (s.setWait w).keyDown k' = s.keyDown k' := rfl
@[simp] theorem State.getV_drawn (r : Reg) : (s.drawn).getV r = s.getV r := rfl
@[simp] theorem State.readByte_drawn (c : Word) : (s.drawn).readByte c = s.readByte c := rfl
@[simp] theorem State.keyDown_drawn (k' : Key) : (s.drawn).keyDown k' = s.keyDown k' := rfl
@[simp] theorem State.getV_writeByte (a : Word) (w : Byte) (r : Reg) : (s.writeByte a w).getV r = s.getV r := rfl
@[simp] theorem State.keyDown_writeByte (a : Word) (w : Byte) (k' : Key) : (s.writeByte a w).keyDown k' = s.keyDown k' := rfl
@[simp] theorem State.readByte_setVWithFlag (x : Reg) (r f : Byte) (c : Word) :
    (s.setVWithFlag x r f).readByte c = s.readByte c := rfl

end Sys2Proof.Machine
end

