-- ==== Sys2Proof/Laws/Memory.lean ====
section
/-! SUPPORT. The laws of memory: what a write does to every read, and that every memory operation keeps the canonical
form (`Memory.wf`). -/

namespace Sys2Proof.Machine

theorem Memory.read_cell_append (a : Nat) (w : Byte) (m : Memory) (c : Nat)
    (h : c = a → Memory.read m a = Memory.unlisted a) :
    Memory.read (Memory.cell a w ++ m) c = if c = a then w else Memory.read m c := by
  unfold Memory.cell
  split <;> rename_i hw
  · by_cases hc : c = a
    · subst hc; simp [h rfl, hw]
    · simp [hc]
  · simp [Memory.read]

/-- In a memory whose cells start at `lo`, an address below `lo` is not listed. -/
theorem Memory.read_of_lt {m : Memory} {lo a : Nat} (h : Memory.wfFrom lo m = true) (ha : a < lo) :
    Memory.read m a = Memory.unlisted a := by
  induction m generalizing lo with
  | nil => rfl
  | cons c m ih =>
    obtain ⟨b, u⟩ := c
    simp only [Memory.wfFrom, Bool.and_eq_true, decide_eq_true_eq] at h
    have : a ≠ b := by omega
    simp only [Memory.read, if_neg this]
    exact ih h.2 (by omega)

/-- A write changes the byte at its own address to the byte written and no other. -/
theorem Memory.read_write_from {m : Memory} {lo : Nat} (h : Memory.wfFrom lo m = true) (a : Nat) (w : Byte) (c : Nat) :
    Memory.read (Memory.write m a w) c = if c = a then w else Memory.read m c := by
  induction m generalizing lo with
  | nil =>
    have := Memory.read_cell_append a w [] c (fun _ => rfl)
    simpa [Memory.write] using this
  | cons d m ih =>
    obtain ⟨b, u⟩ := d
    have h0 := h
    simp only [Memory.wfFrom, Bool.and_eq_true, decide_eq_true_eq] at h
    unfold Memory.write
    split <;> rename_i hab
    · refine Memory.read_cell_append a w _ c fun _ => ?_
      have hne : a ≠ b := by omega
      rw [Memory.read, if_neg hne]
      exact Memory.read_of_lt h.2 (by omega)
    · split <;> rename_i hab'
      · subst hab'
        rw [Memory.read_cell_append a w m c fun _ => Memory.read_of_lt h.2 (by omega)]
        by_cases hc : c = a <;> simp [hc, Memory.read]
      · simp only [Memory.read, ih h.2]
        by_cases hc : c = b
        · have : c ≠ a := by omega
          simp [hc, show b ≠ a by omega]
        · simp [hc]

theorem Memory.wfFrom_mono {m : Memory} {lo lo' : Nat} (h : Memory.wfFrom lo m = true) (hl : lo' ≤ lo) :
    Memory.wfFrom lo' m = true := by
  cases m with
  | nil => rfl
  | cons c m =>
    simp only [Memory.wfFrom, Bool.and_eq_true, decide_eq_true_eq] at h ⊢
    exact ⟨⟨⟨by omega, h.1.1.2⟩, h.1.2⟩, h.2⟩

theorem Memory.wfFrom_cell_append {m : Memory} {lo a : Nat} (w : Byte) (hlo : lo ≤ a) (ha : a < Config.memSize)
    (h : Memory.wfFrom (a + 1) m = true) : Memory.wfFrom lo (Memory.cell a w ++ m) = true := by
  unfold Memory.cell
  split <;> rename_i hw
  · exact Memory.wfFrom_mono h (by omega)
  · simp [Memory.wfFrom, hlo, ha, hw, h]

theorem Memory.wfFrom_write {m : Memory} {lo a : Nat} (w : Byte) (h : Memory.wfFrom lo m = true) (hlo : lo ≤ a)
    (ha : a < Config.memSize) : Memory.wfFrom lo (Memory.write m a w) = true := by
  induction m generalizing lo with
  | nil => simpa [Memory.write] using Memory.wfFrom_cell_append (m := []) w hlo ha rfl
  | cons d m ih =>
    obtain ⟨b, u⟩ := d
    have h0 := h
    simp only [Memory.wfFrom, Bool.and_eq_true, decide_eq_true_eq] at h
    unfold Memory.write
    split <;> rename_i hab
    · refine Memory.wfFrom_cell_append w hlo ha ?_
      simp only [Memory.wfFrom, Bool.and_eq_true, decide_eq_true_eq]
      exact ⟨⟨⟨by omega, h.1.1.2⟩, h.1.2⟩, h.2⟩
    · split <;> rename_i hab'
      · subst hab'
        exact Memory.wfFrom_cell_append w hlo ha h.2
      · simp only [Memory.wfFrom, Bool.and_eq_true, decide_eq_true_eq]
        exact ⟨⟨⟨h.1.1.1, h.1.1.2⟩, h.1.2⟩, ih h.2 (by omega)⟩

/-- Two canonical memories that read alike everywhere are equal. -/
theorem Memory.eq_of_read {m m' : Memory} {lo : Nat} (h : Memory.wfFrom lo m = true) (h' : Memory.wfFrom lo m' = true)
    (hr : ∀ a, Memory.read m a = Memory.read m' a) : m = m' := by
  induction m generalizing lo m' with
  | nil =>
    cases m' with
    | nil => rfl
    | cons c m' =>
      obtain ⟨b, u⟩ := c
      simp only [Memory.wfFrom, Bool.and_eq_true, decide_eq_true_eq] at h'
      exact absurd (by simpa [Memory.read] using (hr b).symm) h'.1.2
  | cons c m ih =>
    obtain ⟨b, u⟩ := c
    have h1 := h
    simp only [Memory.wfFrom, Bool.and_eq_true, decide_eq_true_eq] at h
    cases m' with
    | nil => exact absurd (by simpa [Memory.read] using hr b) h.1.2
    | cons c' m' =>
      obtain ⟨b', u'⟩ := c'
      have h1' := h'
      simp only [Memory.wfFrom, Bool.and_eq_true, decide_eq_true_eq] at h'
      have hb : b = b' := by
        rcases Nat.lt_trichotomy b b' with hlt | heq | hgt
        · have e := hr b
          rw [Memory.read, if_pos rfl, Memory.read, if_neg (by omega), Memory.read_of_lt h'.2 (by omega)] at e
          exact absurd e h.1.2
        · exact heq
        · have e := hr b'
          rw [Memory.read, if_neg (by omega), Memory.read_of_lt h.2 (by omega), Memory.read, if_pos rfl] at e
          exact absurd e.symm h'.1.2
      subst hb
      have hu : u = u' := by simpa [Memory.read] using hr b
      subst hu
      have : m = m' := ih h.2 h'.2 fun a => by
        by_cases ha : a = b
        · subst ha
          rw [Memory.read_of_lt h.2 (by omega), Memory.read_of_lt h'.2 (by omega)]
        · simpa [Memory.read, ha] using hr a
      rw [this]

theorem phys_lt (a : Word) : phys a < Config.memSize := Nat.mod_lt _ (by decide)

/-- Everything a write to canonical memory does, for the reader of one byte at a physical address. -/
theorem Memory.read_write {m : Memory} (h : Memory.wf m = true) (a : Nat) (w : Byte) (c : Nat) :
    Memory.read (Memory.write m a w) c = if c = a then w else Memory.read m c :=
  Memory.read_write_from h a w c

theorem Memory.wf_write {m : Memory} (h : Memory.wf m = true) {a : Nat} (ha : a < Config.memSize) (w : Byte) :
    Memory.wf (Memory.write m a w) = true :=
  Memory.wfFrom_write w h (Nat.zero_le a) ha

theorem State.memCanonical_writeByte {s : State} (h : s.MemCanonical) (a : Word) (w : Byte) :
    (s.writeByte a w).MemCanonical :=
  Memory.wf_write h (phys_lt a) w

/-- Everything a byte store does to a byte load (R30). -/
theorem State.readByte_writeByte {s : State} (h : s.MemCanonical) (a c : Word) (w : Byte) :
    (s.writeByte a w).readByte c = if phys c = phys a then w else s.readByte c :=
  Memory.read_write h _ w _

/-- The font is below 0x200 whatever FONT_BASE is, so from there up unlisted memory is 0. -/
theorem Memory.unlisted_of_romBase_le {a : Nat} (h : Config.romBase ≤ a) : Memory.unlisted a = 0 := if_pos h

/-- Inside the font unlisted memory reads as FONT_DATA (R28). -/
theorem Memory.unlisted_font {k : Nat} (hk : k < 80) :
    Memory.unlisted (Config.fontBase.val + k) = Config.fontData.getD k 0 := by
  have hb : Config.fontBase.val < 0x1B1 := Config.fontBase.isLt
  have h1 : ¬ Config.romBase ≤ Config.fontBase.val + k := by unfold Config.romBase; omega
  have h2 : Config.fontBase.val + k - Config.fontBase.val = k := by omega
  rw [Memory.unlisted, if_neg h1, fontByte, if_pos (Nat.le_add_right _ _), h2]

theorem fontData_length : Config.fontData.length = 80 := by decide

/-- Unlisted memory holds the font (R28), in the form of `State.FontInPlace`. -/
theorem Memory.some_unlisted_font {k : Nat} (hk : k < 80) :
    some (Memory.unlisted (Config.fontBase.val + k)) = Config.fontData[k]? := by
  have h : k < Config.fontData.length := by rwa [fontData_length]
  rw [Memory.unlisted_font hk, List.getD_eq_getElem _ _ h, List.getElem?_eq_getElem h]

/-- Outside the font unlisted memory is 0 (R27). -/
theorem Memory.unlisted_outside {a : Nat} (h : a < Config.fontBase.val ∨ Config.fontBase.val + 80 ≤ a) :
    Memory.unlisted a = 0 := by
  unfold Memory.unlisted fontByte
  split
  · rfl
  · split
    · rw [List.getD_eq_default]
      rw [fontData_length]
      omega
    · rfl

end Sys2Proof.Machine
end

