-- ==== Sys2Proof/Laws/Registers.lean ====
section
/-! SUPPORT. The laws of the register file, the call stack and the bulk moves between registers and memory. -/

namespace Sys2Proof.Machine

/-! ### The register file -/

theorem State.getV_eq (s : State) (r : Reg) : s.getV r = s.v[r.val] := rfl

/-- Everything a register write does to a register read (R9). -/
theorem State.getV_setV (s : State) (x r : Reg) (b : Byte) :
    (s.setV x b).getV r = if r = x then b else s.getV r := by
  simp only [State.getV, State.setV, Fin.getElem_fin, Vector.getElem_set, Fin.ext_iff, eq_comm]

/-- Everything a result write followed by the flag write does to a register read: the flag stands last (R10). -/
theorem State.getV_setVWithFlag (s : State) (x r : Reg) (res flag : Byte) :
    (s.setVWithFlag x res flag).getV r = if r = 15 then flag else if r = x then res else s.getV r := by
  simp only [State.setVWithFlag, State.getV_setV, regF]

/-- Two states that agree in V register by register have the same register file. -/
theorem State.v_eq_of_getV {s t : State} (h : ∀ r, s.getV r = t.getV r) : s.v = t.v :=
  Vector.ext fun j hj => h ⟨j, hj⟩

/-! ### The call stack -/

/-- What `pop?` answers: none exactly on the empty stack, else the newest entry (R13). -/
theorem State.pop?_empty {s : State} (h : s.stack = []) : s.pop? = none := by
  simp [State.pop?, h]

theorem State.pop?_concat {s : State} {st : List Word} {a : Word} (h : s.stack = st ++ [a]) :
    s.pop? = some (a, { s with stack := st }) := by
  simp [State.pop?, h]

/-! ### The registers of the bulk instructions -/

theorem mem_regsUpTo (x r : Reg) : r ∈ regsUpTo x ↔ r ≤ x := by
  revert x r; decide +kernel

theorem nodup_regsUpTo (x : Reg) : (regsUpTo x).Nodup :=
  (List.nodup_finRange 16).sublist (List.take_sublist _ _)

/-- Two different registers' bytes go to two different cells: the run is shorter than memory (R34 (d)). -/
theorem State.phys_ea_inj (s : State) {r q : Reg} (h : phys (s.ea r.val) = phys (s.ea q.val)) : r = q := by
  have hr := r.isLt
  have hq := q.isLt
  have := s.i.isLt
  simp only [phys, State.ea, Config.memSize, BitVec.toNat_add, BitVec.toNat_ofNat] at h
  exact Fin.ext (by omega)

/-- The physical address at offset `j` from I (R29). -/
theorem State.phys_ea (s : State) (j : Nat) : phys (s.ea j) = (s.i.toNat + j) % 4096 := by
  simp only [phys, State.ea, Config.memSize, BitVec.toNat_add, BitVec.toNat_ofNat]
  omega

/-! ### The bulk load -/

theorem State.loadRegs_aux (s : State) (rs : List Reg) (t : State) (r : Reg) :
    (rs.foldl (fun t r => t.setV r (s.readByte (s.ea r.val))) t).getV r =
      if r ∈ rs then s.readByte (s.ea r.val) else t.getV r := by
  induction rs generalizing t with
  | nil => simp
  | cons q rs ih =>
    rw [List.foldl_cons, ih, State.getV_setV]
    by_cases h1 : r ∈ rs
    · simp [h1]
    · by_cases h2 : r = q
      · subst h2; simp [h1]
      · simp [h1, h2]

/-- What the bulk load leaves in a register (R78). -/
theorem State.getV_loadRegs (s : State) (rs : List Reg) (r : Reg) :
    (s.loadRegs rs).getV r = if r ∈ rs then s.readByte (s.ea r.val) else s.getV r :=
  State.loadRegs_aux s rs s r

theorem State.loadRegs_frame_aux (s : State) (rs : List Reg) (t : State) :
    rs.foldl (fun t r => t.setV r (s.readByte (s.ea r.val))) t =
      { t with v := (rs.foldl (fun t r => t.setV r (s.readByte (s.ea r.val))) t).v } := by
  induction rs generalizing t with
  | nil => rfl
  | cons q rs ih => rw [List.foldl_cons]; exact ih _

/-- The bulk load writes nothing but V (R78). -/
theorem State.loadRegs_frame (s : State) (rs : List Reg) :
    s.loadRegs rs = { s with v := (s.loadRegs rs).v } :=
  State.loadRegs_frame_aux s rs s

/-! ### The bulk store -/

theorem State.storeRegs_frame_aux (s : State) (rs : List Reg) (t : State) :
    rs.foldl (fun t r => t.writeByte (s.ea r.val) (s.getV r)) t =
      { t with mem := (rs.foldl (fun t r => t.writeByte (s.ea r.val) (s.getV r)) t).mem } := by
  induction rs generalizing t with
  | nil => rfl
  | cons q rs ih => rw [List.foldl_cons]; exact ih _

/-- The bulk store writes nothing but MEM (R77). -/
theorem State.storeRegs_frame (s : State) (rs : List Reg) :
    s.storeRegs rs = { s with mem := (s.storeRegs rs).mem } :=
  State.storeRegs_frame_aux s rs s

theorem State.storeRegs_aux (s : State) (rs : List Reg) (t : State) (ht : t.MemCanonical) :
    (rs.foldl (fun t r => t.writeByte (s.ea r.val) (s.getV r)) t).MemCanonical ∧
      ∀ a, Memory.read (rs.foldl (fun t r => t.writeByte (s.ea r.val) (s.getV r)) t).mem a =
        match rs.find? (fun r => phys (s.ea r.val) == a) with
        | some r => s.getV r
        | none => Memory.read t.mem a := by
  induction rs generalizing t with
  | nil => exact ⟨ht, fun a => rfl⟩
  | cons q rs ih =>
    obtain ⟨h1, h2⟩ := ih (t.writeByte (s.ea q.val) (s.getV q)) (State.memCanonical_writeByte ht _ _)
    refine ⟨h1, fun a => ?_⟩
    rw [List.foldl_cons, h2 a, List.find?_cons]
    by_cases hq : phys (s.ea q.val) = a
    · simp only [hq, beq_self_eq_true]
      split <;> rename_i heq
      · rename_i r
        have : r = q := State.phys_ea_inj s (by
          have := List.find?_some heq
          simpa [hq] using this)
        rw [this]
      · rw [State.writeByte_mem, Memory.read_write ht, if_pos hq.symm]
    · have hq' : (phys (s.ea q.val) == a) = false := by simpa using hq
      simp only [hq']
      cases rs.find? (fun r => phys (s.ea r.val) == a) with
      | some r => rfl
      | none => simp only [State.writeByte_mem]; rw [Memory.read_write ht, if_neg (fun h => hq h.symm)]

theorem State.memCanonical_storeRegs {s : State} (h : s.MemCanonical) (rs : List Reg) :
    (s.storeRegs rs).MemCanonical :=
  (State.storeRegs_aux s rs s h).1

/-- The bulk store leaves a register's byte at its address (R77). -/
theorem State.read_storeRegs_mem {s : State} (h : s.MemCanonical) {rs : List Reg} {r : Reg} (hr : r ∈ rs) :
    Memory.read (s.storeRegs rs).mem (phys (s.ea r.val)) = s.getV r := by
  rw [State.storeRegs, (State.storeRegs_aux s rs s h).2]
  split <;> rename_i heq
  · rename_i q
    have : q = r := State.phys_ea_inj s (by simpa using List.find?_some heq)
    rw [this]
  · exact absurd (List.find?_eq_none.mp heq r hr) (by simp)

/-- The bulk store leaves every other address as it was (R77). -/
theorem State.read_storeRegs_other {s : State} (h : s.MemCanonical) {rs : List Reg} {a : Nat}
    (ha : ∀ r ∈ rs, a ≠ phys (s.ea r.val)) :
    Memory.read (s.storeRegs rs).mem a = Memory.read s.mem a := by
  rw [State.storeRegs, (State.storeRegs_aux s rs s h).2]
  split <;> rename_i heq
  · rename_i q
    have hq : phys (s.ea q.val) = a := by simpa using List.find?_some heq
    exact absurd hq.symm (ha q (List.mem_of_find?_eq_some heq))
  · rfl

/-! ### The BCD store -/

/-- LD B's stores write nothing but MEM (R76). -/
theorem State.storeBcd_frame (s : State) (v : Byte) : s.storeBcd v = { s with mem := (s.storeBcd v).mem } := rfl

theorem State.memCanonical_storeBcd {s : State} (h : s.MemCanonical) (v : Byte) : (s.storeBcd v).MemCanonical :=
  State.memCanonical_writeByte (State.memCanonical_writeByte (State.memCanonical_writeByte h _ _) _ _) _ _

/-- What every address reads after LD B's stores (R76): the last store to it wins. -/
theorem State.read_storeBcd {s : State} (h : s.MemCanonical) (v : Byte) (a : Nat) :
    Memory.read (s.storeBcd v).mem a =
      if a = phys (s.ea 2) then bcdUnits v else if a = phys (s.ea 1) then bcdTens v
      else if a = phys (s.ea 0) then bcdHundreds v else Memory.read s.mem a := by
  have h0 := State.memCanonical_writeByte h (s.ea 0) (bcdHundreds v)
  have h1 := State.memCanonical_writeByte h0 (s.ea 1) (bcdTens v)
  rw [State.storeBcd, State.writeByte_mem, Memory.read_write h1, State.writeByte_mem, Memory.read_write h0,
    State.writeByte_mem, Memory.read_write h]

end Sys2Proof.Machine
end

