-- ==== Sys2Proof/Laws/Flags.lean ====
section
/-! SUPPORT. The results and flags of the arithmetic, as bit-vector operations and conditions (R60 to R70, R76, R96). -/

namespace Sys2Proof.Machine

theorem flagByte_decide (c : Prop) [Decidable c] : flagByte (decide c) = if c then 1 else 0 := by
  by_cases h : c <;> simp [flagByte, h]

theorem addResult_eq (a b : Byte) : addResult a b = a + b := by
  refine BitVec.eq_of_toNat_eq ?_
  simp [addResult]

theorem subResult_eq (a b : Byte) : subResult a b = a - b := by
  refine BitVec.eq_of_toInt_eq ?_
  rw [subResult, BitVec.toInt_ofInt, BitVec.toInt_sub, BitVec.toInt_eq_toNat_bmod, BitVec.toInt_eq_toNat_bmod]
  simp

theorem shrResult_eq (b : Byte) : shrResult b = b >>> 1 := by
  refine BitVec.eq_of_toNat_eq ?_
  simp [shrResult, Nat.shiftRight_eq_div_pow]
  omega

theorem shlResult_eq (b : Byte) : shlResult b = b <<< 1 := by
  refine BitVec.eq_of_toNat_eq ?_
  simp [shlResult, Nat.shiftLeft_eq]

/-- The byte drawn is never 0 (R72). -/
theorem State.rndByte_pos (s : State) : 1 ≤ s.rndByte.toNat := by
  have := (Config.rndDraw s.rndCount).isLt
  simp only [State.rndByte, BitVec.toNat_ofNat]
  omega

/-- The glyph address never leaves 16 bits (R75, R70 (h)). -/
theorem State.toNat_glyphAddr (s : State) (x : Reg) :
    (s.glyphAddr x).toNat = Config.fontBase.val + 5 * (s.getV x).toNat := by
  have := Config.fontBase.isLt
  have := (s.getV x).isLt
  simp only [State.glyphAddr, BitVec.toNat_ofNat, Config.glyphBytes]
  omega

/-- A tick takes one from a timer that is not 0 and leaves one that is (R96). -/
theorem toNat_tickDown (t : Byte) : (tickDown t).toNat = t.toNat - 1 := by
  revert t
  decide

end Sys2Proof.Machine
end

