-- ==== Sys2Proof/Laws/Framebuffer.lean ====
section
/-! SUPPORT. The laws of the framebuffer and of the sprite blit: what one pixel holds after a blit, and when the blit
reports a collision. -/

namespace Sys2Proof.Machine

theorem Framebuffer.pixel_of_lt (fb : Framebuffer) {cx cy : Nat} (hx : cx < 64) (hy : cy < 32) :
    Framebuffer.pixel fb cx cy = (fb[cx]'hx)[cy]'hy := by
  simp [Framebuffer.pixel, hx, hy]

/-- Everything a pixel write does to a pixel read (R16). -/
theorem Framebuffer.pixel_setPixel (fb : Framebuffer) {cx cy : Nat} (hx : cx < 64) (hy : cy < 32) (b : Bool)
    (dx dy : Nat) :
    Framebuffer.pixel (Framebuffer.setPixel fb cx cy b) dx dy =
      if dx = cx ∧ dy = cy then b else Framebuffer.pixel fb dx dy := by
  by_cases hd : dx < 64 ∧ dy < 32
  · rw [Framebuffer.pixel_of_lt _ hd.1 hd.2, Framebuffer.pixel_of_lt _ hd.1 hd.2]
    simp only [Framebuffer.setPixel, hx, hy, and_self, dif_pos, Vector.getElem_set]
    by_cases h1 : cx = dx
    · subst h1
      by_cases h2 : cy = dy
      · subst h2; simp
      · simp [h2, Ne.symm h2]
    · simp [h1, Ne.symm h1]
  · have : ¬ (dx = cx ∧ dy = cy) := by rintro ⟨rfl, rfl⟩; exact hd ⟨hx, hy⟩
    simp [Framebuffer.pixel, hd, this]

@[simp] theorem Framebuffer.pixel_blank (cx cy : Nat) : Framebuffer.pixel Framebuffer.blank cx cy = false := by
  simp [Framebuffer.pixel, Framebuffer.blank]

/-- Two framebuffers that agree pixel by pixel are equal. -/
theorem Framebuffer.eq_of_pixel {fb fb' : Framebuffer}
    (h : ∀ cx cy, cx < 64 → cy < 32 → Framebuffer.pixel fb cx cy = Framebuffer.pixel fb' cx cy) : fb = fb' := by
  refine Vector.ext fun cx hx => Vector.ext fun cy hy => ?_
  simpa only [Framebuffer.pixel_of_lt _ hx hy] using h cx cy hx hy

/-- One sprite bit: the pixel is XORed with it and no other changes; a hit is a set bit on a lit pixel (R86). -/
theorem blitPixel_spec {cx cy : Nat} (hx : cx < 64) (hy : cy < 32) (bit : Bool) (a : Framebuffer × Bool) :
    (∀ dx dy, Framebuffer.pixel (blitPixel cx cy bit a).1 dx dy =
      (Framebuffer.pixel a.1 dx dy ^^ (decide (dx = cx ∧ dy = cy) && bit))) ∧
    (blitPixel cx cy bit a).2 = (a.2 || (bit && Framebuffer.pixel a.1 cx cy)) := by
  cases bit with
  | false => simp [blitPixel]
  | true =>
    refine ⟨fun dx dy => ?_, by simp [blitPixel]⟩
    simp only [blitPixel, if_true, Framebuffer.pixel_setPixel _ hx hy]
    by_cases h : dx = cx ∧ dy = cy
    · obtain ⟨rfl, rfl⟩ := h; simp
    · simp [h]

/-- One sprite row of `cols` columns from `x0` (R86). -/
theorem blitRow_spec {x0 cy cols : Nat} (hx : x0 + cols ≤ 64) (hy : cy < 32) (b : Byte) (a : Framebuffer × Bool) :
    (∀ dx dy, Framebuffer.pixel (blitRow x0 cy cols b a).1 dx dy =
      (Framebuffer.pixel a.1 dx dy ^^
        (decide (dy = cy ∧ x0 ≤ dx ∧ dx < x0 + cols) && b.getLsbD (7 - (dx - x0))))) ∧
    ((blitRow x0 cy cols b a).2 = true ↔
      a.2 = true ∨ ∃ c < cols, b.getLsbD (7 - c) = true ∧ Framebuffer.pixel a.1 (x0 + c) cy = true) := by
  induction cols with
  | zero => exact ⟨fun dx dy => by rw [decide_eq_false (by omega)]; simp [blitRow], by simp [blitRow]⟩
  | succ n ih =>
    obtain ⟨ih1, ih2⟩ := ih (by omega)
    have hs : blitRow x0 cy (n + 1) b a = blitPixel (x0 + n) cy (b.getLsbD (7 - n)) (blitRow x0 cy n b a) := by
      simp [blitRow, List.range_succ]
    obtain ⟨p1, p2⟩ := blitPixel_spec (cx := x0 + n) (by omega) hy (b.getLsbD (7 - n)) (blitRow x0 cy n b a)
    rw [hs]
    constructor
    · intro dx dy
      rw [p1, ih1]
      by_cases h : dx = x0 + n ∧ dy = cy
      · obtain ⟨rfl, rfl⟩ := h
        have : x0 + n - x0 = n := by omega
        simp [this]
      · have e1 : decide (dx = x0 + n ∧ dy = cy) = false := by simpa using h
        have e2 : decide (dy = cy ∧ x0 ≤ dx ∧ dx < x0 + (n + 1)) = decide (dy = cy ∧ x0 ≤ dx ∧ dx < x0 + n) := by
          rw [decide_eq_decide]
          constructor
          · rintro ⟨h1, h2, h3⟩
            exact ⟨h1, h2, by by_contra hc; exact h ⟨by omega, h1⟩⟩
          · rintro ⟨h1, h2, h3⟩
            exact ⟨h1, h2, by omega⟩
        rw [e1, e2]
        simp
    · have hold : Framebuffer.pixel (blitRow x0 cy n b a).1 (x0 + n) cy = Framebuffer.pixel a.1 (x0 + n) cy := by
        rw [ih1]; simp
      rw [p2, hold, Bool.or_eq_true, ih2, Bool.and_eq_true]
      constructor
      · rintro ((h | ⟨c, hc, h⟩) | h)
        · exact .inl h
        · exact .inr ⟨c, by omega, h⟩
        · exact .inr ⟨n, by omega, h⟩
      · rintro (h | ⟨c, hc, h⟩)
        · exact .inl (.inl h)
        · by_cases hcn : c = n
          · subst hcn; exact .inr h
          · exact .inl (.inr ⟨c, by omega, h⟩)

/-- The rows of a sprite: each drawn pixel is XORed with its sprite bit, and a hit is a set bit on a lit pixel (R86). -/
theorem blitRows_spec {x0 y0 rows cols : Nat} (hx : x0 + cols ≤ 64) (hy : y0 + rows ≤ 32) (row : Nat → Byte)
    (a : Framebuffer × Bool) :
    (∀ dx dy, Framebuffer.pixel (blitRows x0 y0 rows cols row a).1 dx dy =
      (Framebuffer.pixel a.1 dx dy ^^
        (decide ((y0 ≤ dy ∧ dy < y0 + rows) ∧ x0 ≤ dx ∧ dx < x0 + cols) &&
          (row (dy - y0)).getLsbD (7 - (dx - x0))))) ∧
    ((blitRows x0 y0 rows cols row a).2 = true ↔
      a.2 = true ∨ ∃ r < rows, ∃ c < cols,
        (row r).getLsbD (7 - c) = true ∧ Framebuffer.pixel a.1 (x0 + c) (y0 + r) = true) := by
  induction rows with
  | zero => exact ⟨fun dx dy => by rw [decide_eq_false (by omega)]; simp [blitRows], by simp [blitRows]⟩
  | succ n ih =>
    obtain ⟨ih1, ih2⟩ := ih (by omega)
    have hs : blitRows x0 y0 (n + 1) cols row a =
        blitRow x0 (y0 + n) cols (row n) (blitRows x0 y0 n cols row a) := by
      simp [blitRows, List.range_succ]
    obtain ⟨p1, p2⟩ := blitRow_spec (cy := y0 + n) hx (by omega) (row n) (blitRows x0 y0 n cols row a)
    rw [hs]
    constructor
    · intro dx dy
      rw [p1, ih1]
      by_cases h : dy = y0 + n
      · subst h
        have : y0 + n - y0 = n := by omega
        simp [this]
      · have e1 : decide (dy = y0 + n ∧ x0 ≤ dx ∧ dx < x0 + cols) = false := by simp [h]
        have e2 : decide ((y0 ≤ dy ∧ dy < y0 + (n + 1)) ∧ x0 ≤ dx ∧ dx < x0 + cols) =
            decide ((y0 ≤ dy ∧ dy < y0 + n) ∧ x0 ≤ dx ∧ dx < x0 + cols) := by
          rw [decide_eq_decide]
          constructor
          · rintro ⟨⟨h1, h2⟩, h3⟩; exact ⟨⟨h1, by omega⟩, h3⟩
          · rintro ⟨⟨h1, h2⟩, h3⟩; exact ⟨⟨h1, by omega⟩, h3⟩
        rw [e1, e2]
        simp
    · have hold : ∀ c, Framebuffer.pixel (blitRows x0 y0 n cols row a).1 (x0 + c) (y0 + n) =
          Framebuffer.pixel a.1 (x0 + c) (y0 + n) := fun c => by rw [ih1]; simp
      rw [p2, ih2]
      simp only [hold]
      constructor
      · rintro ((h | ⟨r, hr, h⟩) | ⟨c, hc, h⟩)
        · exact .inl h
        · exact .inr ⟨r, by omega, h⟩
        · exact .inr ⟨n, by omega, c, hc, h⟩
      · rintro (h | ⟨r, hr, h⟩)
        · exact .inl (.inl h)
        · by_cases hrn : r = n
          · subst hrn; exact .inr h
          · exact .inl (.inr ⟨r, by omega, h⟩)

/-- The drawn columns stay on the screen (R86). -/
theorem State.originX_add_drawnCols (s : State) (x : Reg) : s.originX x + drawnCols (s.originX x) ≤ 64 := by
  have : s.originX x < 64 := Nat.mod_lt _ (by decide)
  unfold drawnCols Config.fbWidth
  omega

/-- The drawn rows stay on the screen (R86). -/
theorem State.originY_add_drawnRows (s : State) (y : Reg) (n : Nibble) :
    s.originY y + drawnRows n (s.originY y) ≤ 32 := by
  have : s.originY y < 32 := Nat.mod_lt _ (by decide)
  unfold drawnRows Config.fbHeight
  omega

/-- Everything the blit of DRW does to a pixel (R86): it is XORed with the sprite bit there. -/
theorem State.pixel_blit (s : State) (x y : Reg) (n : Nibble) (cx cy : Nat) (hx : cx < 64) (hy : cy < 32) :
    (s.blit x y n).1.pixel cx cy = (s.fb.pixel cx cy ^^ s.spriteBit x y n cx cy) := by
  rw [State.blit, (blitRows_spec (s.originX_add_drawnCols x) (s.originY_add_drawnRows y n) _ _).1]
  congr 1
  unfold State.spriteBit
  have h1 : s.originX x = s.v[x].toNat % 64 := rfl
  have h2 : s.originY y = s.v[y].toNat % 32 := rfl
  congr 1
  · rw [decide_eq_decide]
    simp only [drawnRows, drawnCols, h1, h2, Config.fbWidth, Config.fbHeight]
    omega
  · rw [State.readByte, State.phys_ea]
    rfl

/-- When the blit of DRW reports a collision (R86): exactly when a lit pixel of the screen meets a set sprite bit. -/
theorem State.blit_hit (s : State) (x y : Reg) (n : Nibble) :
    (s.blit x y n).2 = true ↔
      ∃ (cx : Fin 64) (cy : Fin 32), s.fb[cx][cy] = true ∧ s.spriteBit x y n cx.val cy.val = true := by
  have h1 : s.originX x = s.v[x].toNat % 64 := rfl
  have h2 : s.originY y = s.v[y].toNat % 32 := rfl
  have hX := s.originX_add_drawnCols x
  have hY := s.originY_add_drawnRows y n
  rw [State.blit, (blitRows_spec hX hY _ _).2]
  simp only [Bool.false_eq_true, false_or, State.spriteBit, Bool.and_eq_true, decide_eq_true_eq, ← h1, ← h2]
  constructor
  · rintro ⟨r, hr, c, hc, hb, hp⟩
    have e1 : s.originX x + c < 64 := by omega
    have e2 : s.originY y + r < 32 := by omega
    rw [Framebuffer.pixel_of_lt _ e1 e2] at hp
    rw [State.readByte, State.phys_ea] at hb
    refine ⟨⟨_, e1⟩, ⟨_, e2⟩, hp, ?_, ?_⟩
    · simp only [drawnRows, drawnCols, Config.fbWidth, Config.fbHeight] at *
      omega
    · simpa using hb
  · rintro ⟨cx, cy, hp, hb1, hb2⟩
    refine ⟨cy.val - s.originY y, ?_, cx.val - s.originX x, ?_, ?_, ?_⟩
    · simp only [drawnRows, Config.fbHeight]
      omega
    · simp only [drawnCols, Config.fbWidth]
      omega
    · rw [State.readByte, State.phys_ea]
      exact hb2
    · rw [show s.originX x + (cx.val - s.originX x) = cx.val by omega,
        show s.originY y + (cy.val - s.originY y) = cy.val by omega, Framebuffer.pixel_of_lt _ cx.isLt cy.isLt]
      exact hp

/-- DRW writes nothing but VF, FB and DIRTY (R86). -/
theorem execDrw_frame (x y : Reg) (n : Nibble) (s : State) :
    ∃ t, execDrw x y n s = .next t ∧ t = { s with v := t.v, fb := (s.blit x y n).1, dirty := true } :=
  ⟨_, rfl, rfl⟩

end Sys2Proof.Machine
end

