-- ==== Sys2Proof/Laws/Step.lean ====
section
/-! SUPPORT. What a step can do, said once: the inversion of `step`, and the frames of the shared operations that the
inversion of an instruction goes through. -/

namespace Sys2Proof.Machine

/-- Everything `step` can do (R45, R89, R92). -/
theorem step_cases {s t : State} (h : step s = .next t) :
    (s.fault ≠ none ∧ t = s) ∨
    (s.fault = none ∧ ∃ i, decode s.fetchWord = .ok i ∧ exec i s.advance = .next t) ∨
    (s.fault = none ∧ ∃ e, decode s.fetchWord = .error e ∧ t = s.advance) := by
  unfold step at h
  split at h <;> rename_i hf
  · exact .inl ⟨by simp [hf], by injection h with h; exact h.symm⟩
  · split at h <;> rename_i hd
    · exact .inr (.inl ⟨hf, _, hd, h⟩)
    · exact .inr (.inr ⟨hf, _, hd, by simp only [execUnrecognised] at h; injection h with h; exact h.symm⟩)

theorem step_of_fault {s : State} (h : s.fault ≠ none) : step s = .next s := by
  unfold step
  cases hf : s.fault with
  | none => exact absurd hf h
  | some f => rfl

theorem step_of_decode {s : State} {i : Instr} (hf : s.fault = none) (hd : decode s.fetchWord = .ok i) :
    step s = exec i s.advance := by
  unfold step; rw [hf]; simp [hd]

theorem step_of_unrecognised {s : State} {e : DecodeError} (hf : s.fault = none)
    (hd : decode s.fetchWord = .error e) : step s = .next s.advance := by
  unfold step; rw [hf]; simp [hd, execUnrecognised]

/-- Everything `execRet` can do (R53). -/
theorem execRet_cases (s : State) :
    (s.stack = [] ∧ execRet s = .next (s.raise .stackUnderflow)) ∨
    (∃ st a, s.stack = st ++ [a] ∧ execRet s = .next { s with stack := st, pc := a }) := by
  rcases List.eq_nil_or_concat s.stack with h | ⟨st, a, h⟩
  · exact .inl ⟨h, by rw [execRet, State.pop?_empty h]⟩
  · rw [List.concat_eq_append] at h
    exact .inr ⟨st, a, h, by rw [execRet, State.pop?_concat h]; rfl⟩

/-- Everything the key-wait can do (R81). -/
theorem execLdKey_cases (x : Reg) (s : State) :
    (s.wait = none ∧ s.lowestKeyDown = none ∧ execLdKey x s = .next s.rewind) ∨
    (∃ k, s.wait = none ∧ s.lowestKeyDown = some k ∧ execLdKey x s = .next (s.setWait (some k)).rewind) ∨
    (∃ k, s.wait = some k ∧ s.keyDown k = true ∧ execLdKey x s = .next s.rewind) ∨
    (∃ k, s.wait = some k ∧ s.keyDown k = false ∧ execLdKey x s = .next ((s.setV x (keyByte k)).setWait none)) := by
  cases hw : s.wait with
  | none =>
    cases hl : s.lowestKeyDown with
    | none => exact .inl ⟨rfl, rfl, by simp [execLdKey, hw, State.awaitPress, hl]⟩
    | some k => exact .inr (.inl ⟨k, rfl, rfl, by simp [execLdKey, hw, State.awaitPress, hl]⟩)
  | some k =>
    cases hk : s.keyDown k with
    | true => exact .inr (.inr (.inl ⟨k, rfl, hk, by simp [execLdKey, hw, State.awaitRelease, hk]⟩))
    | false => exact .inr (.inr (.inr ⟨k, rfl, hk, by simp [execLdKey, hw, State.awaitRelease, hk]⟩))

/-- What `lowestKeyDown` answers when a key is down (R81, decision D9). -/
theorem State.lowestKeyDown_eq_some {s : State} {k : Key} (hk : s.keyDown k = true)
    (hlow : ∀ j, j < k → s.keyDown j = false) : s.lowestKeyDown = some k := by
  unfold State.lowestKeyDown
  cases h : (List.finRange 16).find? (fun j => s.keyDown j) with
  | none => exact absurd hk (by simpa using List.find?_eq_none.mp h k (List.mem_finRange k))
  | some j =>
    have hj : s.keyDown j = true := by simpa using List.find?_some h
    rcases lt_trichotomy j k with hlt | rfl | hgt
    · rw [hlow j hlt] at hj; cases hj
    · rfl
    · obtain ⟨-, as, bs, heq, hno⟩ := List.find?_eq_some_iff_append.mp h
      exfalso
      have hmem : k ∈ as := by
        have hsorted : (List.finRange 16).Pairwise (· < ·) := List.pairwise_lt_finRange 16
        have hk' : k ∈ as ++ j :: bs := heq ▸ List.mem_finRange k
        rw [heq, List.pairwise_append, List.pairwise_cons] at hsorted
        rcases List.mem_append.mp hk' with h1 | h1
        · exact h1
        · rcases List.mem_cons.mp h1 with h2 | h2
          · exact absurd h2 (ne_of_lt hgt)
          · exact absurd (hsorted.2.1.1 k h2) (not_lt_of_gt hgt)
      have := hno k hmem
      simp [hk] at this

/-- What `lowestKeyDown` answers when no key is down (R81). -/
theorem State.lowestKeyDown_eq_none {s : State} (h : ∀ k, s.keyDown k = false) : s.lowestKeyDown = none := by
  simp [State.lowestKeyDown, h]

/-- Loading a list of bytes keeps memory canonical (R40). -/
theorem State.memCanonical_writeBytes {s : State} (h : s.MemCanonical) (a : Word) (bs : List Byte) :
    (s.writeBytes a bs).MemCanonical := by
  induction bs generalizing s a with
  | nil => exact h
  | cons b bs ih => exact ih (State.memCanonical_writeByte h a b) (a + 1)

theorem State.writeBytes_frame (s : State) (a : Word) (bs : List Byte) :
    s.writeBytes a bs = { s with mem := (s.writeBytes a bs).mem } := by
  induction bs generalizing s a with
  | nil => rfl
  | cons b bs ih => simp only [State.writeBytes]; rw [ih]; rfl

/-- The byte at offset `j` of a loaded list of bytes no longer than memory (R40). -/
theorem State.read_writeBytes {s : State} (h : s.MemCanonical) (a : Word) (bs : List Byte)
    (hl : a.toNat + bs.length ≤ Config.memSize) (c : Nat) :
    Memory.read (s.writeBytes a bs).mem c =
      if h : a.toNat ≤ c ∧ c < a.toNat + bs.length then bs[c - a.toNat]'(by omega) else Memory.read s.mem c := by
  induction bs generalizing s a with
  | nil => rw [dif_neg (by simp)]; rfl
  | cons b bs ih =>
    simp only [List.length_cons] at hl ⊢
    by_cases hbs : bs = []
    · subst hbs
      simp only [List.length_nil, Config.memSize] at hl ⊢
      have hp : phys a = a.toNat := by unfold phys Config.memSize; omega
      simp only [State.writeBytes, State.writeByte_mem, Memory.read_write h, hp]
      by_cases hc : c = a.toNat
      · subst hc; simp
      · rw [if_neg hc, dif_neg (by omega)]
    · have hpos : 0 < bs.length := List.length_pos_iff.mpr hbs
      have hp : phys a = a.toNat := by unfold phys Config.memSize at *; omega
      have ha1 : (a + 1).toNat = a.toNat + 1 := by
        unfold Config.memSize at hl
        rw [BitVec.toNat_add, show (1 : Word).toNat = 1 from rfl]
        omega
      simp only [State.writeBytes]
      rw [ih (State.memCanonical_writeByte h a b) (a + 1) (by omega)]
      simp only [ha1, State.writeByte_mem, Memory.read_write h, hp]
      by_cases hc : c = a.toNat
      · subst hc
        rw [dif_neg (by omega), if_pos rfl, dif_pos (by omega)]
        simp
      · by_cases hc2 : a.toNat + 1 ≤ c ∧ c < a.toNat + 1 + bs.length
        · rw [dif_pos hc2, dif_pos (by omega)]
          have : c - a.toNat = (c - (a.toNat + 1)) + 1 := by omega
          simp [this]
        · rw [dif_neg hc2, if_neg hc, dif_neg (by omega)]

/-- What `withFetchWord` places is what the next step fetches (R31; log entry 6), wherever PC stands. -/
theorem State.fetchWord_withFetchWord {s : State} (h : s.MemCanonical) (nbits w : Nat) :
    (s.withFetchWord nbits w).fetchWord = tableWord nbits w := by
  have hne : phys s.pc ≠ phys (s.pc + 1) := by
    simp only [phys, Config.memSize, BitVec.toNat_add, show (1 : Word).toNat = 1 from rfl]
    omega
  have h1 := State.memCanonical_writeByte h s.pc (tableWord nbits w).hi
  have e0 : (s.withFetchWord nbits w).readByte s.pc = (tableWord nbits w).hi := by
    show ((s.writeByte s.pc _).writeByte (s.pc + 1) _).readByte s.pc = _
    rw [State.readByte_writeByte h1, if_neg hne, State.readByte_writeByte h, if_pos rfl]
  have e1 : (s.withFetchWord nbits w).readByte (s.pc + 1) = (tableWord nbits w).lo := by
    show ((s.writeByte s.pc _).writeByte (s.pc + 1) _).readByte (s.pc + 1) = _
    rw [State.readByte_writeByte h1, if_pos rfl]
  show Word.ofBytes _ _ = _
  rw [show (s.withFetchWord nbits w).pc = s.pc from rfl, e0, e1]
  generalize tableWord nbits w = u
  simp

end Sys2Proof.Machine
end

