-- ==== Sys2Proof/Laws/Decode.lean ====
section
/-! SUPPORT. The fields of R42 and the masks of R46: a word is the concatenation of its fields, the encoders' fields are
their operands, and a row's test `w & mask = match` read as a test of fields. -/

namespace Sys2Proof

/-! ### A word is the concatenation of its fields -/

@[simp] theorem Reg.nibble_ofNibble (b : Nibble) : (Reg.ofNibble b).nibble = b := by
  simp [Reg.nibble, Reg.ofNibble]

@[simp] theorem Reg.ofNibble_nibble (r : Reg) : Reg.ofNibble r.nibble = r := by
  refine Fin.ext ?_
  have := r.isLt
  simp only [Reg.nibble, Reg.ofNibble, BitVec.toNat_ofNat]
  omega

theorem encNNN_fields (w : Word) : encNNN (fieldOp w) (fieldNNN w) = w := by
  refine BitVec.eq_of_getLsbD_eq fun j hj => ?_
  simp only [encNNN, fieldOp, fieldNNN, BitVec.getLsbD_append, BitVec.getLsbD_extractLsb']
  interval_cases j <;> simp [-BitVec.getLsbD_eq_getElem]

theorem encXKK_fields (w : Word) : encXKK (fieldOp w) (fieldX w) (fieldKK w) = w := by
  refine BitVec.eq_of_getLsbD_eq fun j hj => ?_
  simp only [encXKK, fieldOp, fieldX, fieldKK, Reg.nibble_ofNibble, BitVec.getLsbD_append, BitVec.getLsbD_extractLsb']
  interval_cases j <;> simp [-BitVec.getLsbD_eq_getElem]

theorem encXYN_fields (w : Word) : encXYN (fieldOp w) (fieldX w) (fieldY w) (fieldN w) = w := by
  refine BitVec.eq_of_getLsbD_eq fun j hj => ?_
  simp only [encXYN, fieldOp, fieldX, fieldY, fieldN, Reg.nibble_ofNibble, BitVec.getLsbD_append,
    BitVec.getLsbD_extractLsb']
  interval_cases j <;> simp [-BitVec.getLsbD_eq_getElem]

/-! ### The fields of an encoded word -/

theorem extract_hi_append {a b : Nat} (x : BitVec a) (y : BitVec b) : (x ++ y).extractLsb' b a = x := by
  refine BitVec.eq_of_getLsbD_eq fun j hj => ?_
  simp [BitVec.getLsbD_append, BitVec.getLsbD_extractLsb', hj, -BitVec.getLsbD_eq_getElem]

@[simp] theorem fieldOp_encNNN (op : Nibble) (nnn : Addr12) : fieldOp (encNNN op nnn) = op := extract_hi_append op nnn

@[simp] theorem fieldNNN_encNNN (op : Nibble) (nnn : Addr12) : fieldNNN (encNNN op nnn) = nnn := by
  refine BitVec.eq_of_getLsbD_eq fun j hj => ?_
  simp only [encNNN, fieldNNN, BitVec.getLsbD_append, BitVec.getLsbD_extractLsb']
  interval_cases j <;> simp [-BitVec.getLsbD_eq_getElem]

@[simp] theorem fieldOp_encXKK (op : Nibble) (x : Reg) (kk : Byte) : fieldOp (encXKK op x kk) = op := by
  refine BitVec.eq_of_getLsbD_eq fun j hj => ?_
  simp only [encXKK, fieldOp, BitVec.getLsbD_append, BitVec.getLsbD_extractLsb']
  interval_cases j <;> simp [-BitVec.getLsbD_eq_getElem]

@[simp] theorem fieldX_encXKK (op : Nibble) (x : Reg) (kk : Byte) : fieldX (encXKK op x kk) = x := by
  have : (encXKK op x kk).extractLsb' 8 4 = x.nibble := by
    refine BitVec.eq_of_getLsbD_eq fun j hj => ?_
    simp only [encXKK, BitVec.getLsbD_append, BitVec.getLsbD_extractLsb']
    interval_cases j <;> simp [-BitVec.getLsbD_eq_getElem]
  rw [fieldX, this, Reg.ofNibble_nibble]

@[simp] theorem fieldKK_encXKK (op : Nibble) (x : Reg) (kk : Byte) : fieldKK (encXKK op x kk) = kk := by
  refine BitVec.eq_of_getLsbD_eq fun j hj => ?_
  simp only [encXKK, fieldKK, BitVec.getLsbD_append, BitVec.getLsbD_extractLsb']
  interval_cases j <;> simp [-BitVec.getLsbD_eq_getElem]

@[simp] theorem fieldOp_encXYN (op : Nibble) (x y : Reg) (n : Nibble) : fieldOp (encXYN op x y n) = op := by
  refine BitVec.eq_of_getLsbD_eq fun j hj => ?_
  simp only [encXYN, fieldOp, BitVec.getLsbD_append, BitVec.getLsbD_extractLsb']
  interval_cases j <;> simp [-BitVec.getLsbD_eq_getElem]

@[simp] theorem fieldX_encXYN (op : Nibble) (x y : Reg) (n : Nibble) : fieldX (encXYN op x y n) = x := by
  have : (encXYN op x y n).extractLsb' 8 4 = x.nibble := by
    refine BitVec.eq_of_getLsbD_eq fun j hj => ?_
    simp only [encXYN, BitVec.getLsbD_append, BitVec.getLsbD_extractLsb']
    interval_cases j <;> simp [-BitVec.getLsbD_eq_getElem]
  rw [fieldX, this, Reg.ofNibble_nibble]

@[simp] theorem fieldY_encXYN (op : Nibble) (x y : Reg) (n : Nibble) : fieldY (encXYN op x y n) = y := by
  have : (encXYN op x y n).extractLsb' 4 4 = y.nibble := by
    refine BitVec.eq_of_getLsbD_eq fun j hj => ?_
    simp only [encXYN, BitVec.getLsbD_append, BitVec.getLsbD_extractLsb']
    interval_cases j <;> simp [-BitVec.getLsbD_eq_getElem]
  rw [fieldY, this, Reg.ofNibble_nibble]

@[simp] theorem fieldN_encXYN (op : Nibble) (x y : Reg) (n : Nibble) : fieldN (encXYN op x y n) = n := by
  refine BitVec.eq_of_getLsbD_eq fun j hj => ?_
  simp only [encXYN, fieldN, BitVec.getLsbD_append, BitVec.getLsbD_extractLsb']
  interval_cases j <;> simp [-BitVec.getLsbD_eq_getElem]

/-! ### The tests of R46 as tests of fields -/

/-- Mask 0xF000: the family nibble (formats NNN, XKK, XYN). -/
theorem and_F000_eq_iff (w : Word) (op : Nibble) : w &&& 0xF000#16 = encNNN op 0 ↔ fieldOp w = op := by
  have h : w &&& 0xF000#16 = encNNN (fieldOp w) 0 := by
    refine BitVec.eq_of_getLsbD_eq fun j hj => ?_
    simp only [encNNN, fieldOp, BitVec.getLsbD_and, BitVec.getLsbD_append, BitVec.getLsbD_extractLsb']
    interval_cases j <;> simp [-BitVec.getLsbD_eq_getElem]
  rw [h]
  exact ⟨fun e => by simpa using congrArg fieldOp e, fun e => by rw [e]⟩

/-- Mask 0xF00F: the family nibble and the fourth nibble (format XY). -/
theorem and_F00F_eq_iff (w : Word) (op n : Nibble) :
    w &&& 0xF00F#16 = encXYN op 0 0 n ↔ fieldOp w = op ∧ fieldN w = n := by
  have h : w &&& 0xF00F#16 = encXYN (fieldOp w) 0 0 (fieldN w) := by
    refine BitVec.eq_of_getLsbD_eq fun j hj => ?_
    simp only [encXYN, fieldOp, fieldN, Reg.nibble, BitVec.getLsbD_and, BitVec.getLsbD_append,
      BitVec.getLsbD_extractLsb']
    interval_cases j <;> simp [-BitVec.getLsbD_eq_getElem]
  rw [h]
  exact ⟨fun e => ⟨by simpa using congrArg fieldOp e, by simpa using congrArg fieldN e⟩,
    fun e => by rw [e.1, e.2]⟩

/-- Mask 0xF0FF: the family nibble and the low byte (format X). -/
theorem and_F0FF_eq_iff (w : Word) (op : Nibble) (kk : Byte) :
    w &&& 0xF0FF#16 = encXKK op 0 kk ↔ fieldOp w = op ∧ fieldKK w = kk := by
  have h : w &&& 0xF0FF#16 = encXKK (fieldOp w) 0 (fieldKK w) := by
    refine BitVec.eq_of_getLsbD_eq fun j hj => ?_
    simp only [encXKK, fieldOp, fieldKK, Reg.nibble, BitVec.getLsbD_and, BitVec.getLsbD_append,
      BitVec.getLsbD_extractLsb']
    interval_cases j <;> simp [-BitVec.getLsbD_eq_getElem]
  rw [h]
  exact ⟨fun e => ⟨by simpa using congrArg fieldOp e, by simpa using congrArg fieldKK e⟩,
    fun e => by rw [e.1, e.2]⟩

/-! The same tests as the decoder writes them, for a `match` value that need not be split into fields first. -/

theorem and_F000_beq (w p : Word) : (w &&& 0xF000#16 == p) = (fieldOp w == fieldOp p && fieldNNN p == 0) := by
  rw [Bool.eq_iff_iff, Bool.and_eq_true, beq_iff_eq, beq_iff_eq, beq_iff_eq]
  constructor
  · intro h
    have h1 := (and_F000_eq_iff w (fieldOp w)).mpr rfl
    rw [h] at h1
    rw [h1]; simp
  · rintro ⟨h1, h2⟩
    rw [(and_F000_eq_iff w (fieldOp p)).mpr h1, ← h2, encNNN_fields]

theorem and_F00F_beq (w p : Word) :
    (w &&& 0xF00F#16 == p) =
      (fieldOp w == fieldOp p && fieldN w == fieldN p && (fieldX p == 0 && fieldY p == 0)) := by
  rw [Bool.eq_iff_iff]
  simp only [Bool.and_eq_true, beq_iff_eq]
  constructor
  · intro h
    have h1 := (and_F00F_eq_iff w (fieldOp w) (fieldN w)).mpr ⟨rfl, rfl⟩
    rw [h] at h1
    rw [h1]; simp
  · rintro ⟨⟨h1, h2⟩, h3, h4⟩
    rw [(and_F00F_eq_iff w (fieldOp p) (fieldN p)).mpr ⟨h1, h2⟩]
    have := encXYN_fields p
    rwa [h3, h4] at this

theorem and_F0FF_beq (w p : Word) :
    (w &&& 0xF0FF#16 == p) = (fieldOp w == fieldOp p && fieldKK w == fieldKK p && fieldX p == 0) := by
  rw [Bool.eq_iff_iff]
  simp only [Bool.and_eq_true, beq_iff_eq]
  constructor
  · intro h
    have h1 := (and_F0FF_eq_iff w (fieldOp w) (fieldKK w)).mpr ⟨rfl, rfl⟩
    rw [h] at h1
    rw [h1]; simp
  · rintro ⟨⟨h1, h2⟩, h3⟩
    rw [(and_F0FF_eq_iff w (fieldOp p) (fieldKK p)).mpr ⟨h1, h2⟩]
    have := encXKK_fields p
    rwa [h3] at this

/-- Mask 0xFFFF: the whole word (format FIXED). -/
theorem and_FFFF (w : Word) : w &&& 0xFFFF#16 = w := by
  have h : 0xFFFF#16 = BitVec.allOnes 16 := by decide
  rw [h, BitVec.and_allOnes]

/-! ### Selection by fields -/

/-- A row's test as a test of fields, for the rows after CLS and RET. -/
def OpcodeRow.testFields (r : OpcodeRow) (op n : Nibble) (kk : Byte) : Bool :=
  if r.mask = 0xF000#16 then op == fieldOp r.pattern
  else if r.mask = 0xF00F#16 then op == fieldOp r.pattern && n == fieldN r.pattern
  else op == fieldOp r.pattern && kk == fieldKK r.pattern

/-- The rows of R46 after CLS and RET. -/
def rowsAfterFixed : List OpcodeRow := opcodeTable.drop 2

/-- The row has one of the three masks of R46 after CLS and RET, and its `match` is 0 outside its mask. -/
def OpcodeRow.goodForm (r : OpcodeRow) : Bool := decide
  ((r.mask = 0xF000#16 ∧ fieldNNN r.pattern = 0) ∨
   (r.mask = 0xF00F#16 ∧ fieldX r.pattern = 0 ∧ fieldY r.pattern = 0) ∨
   (r.mask = 0xF0FF#16 ∧ fieldX r.pattern = 0))

theorem rowsAfterFixed_form : rowsAfterFixed.all OpcodeRow.goodForm = true := by decide

/-- A row's test is its test of fields. -/
theorem test_rowsAfterFixed (w : Word) :
    ∀ r ∈ rowsAfterFixed, (w &&& r.mask == r.pattern) = r.testFields (fieldOp w) (fieldN w) (fieldKK w) := by
  intro r hr
  have h0 := List.all_eq_true.mp rowsAfterFixed_form r hr
  simp only [OpcodeRow.goodForm, decide_eq_true_eq] at h0
  rcases h0 with ⟨hm, h1⟩ | ⟨hm, h1, h2⟩ | ⟨hm, h1⟩
  · rw [hm, and_F000_beq, h1]
    simp [OpcodeRow.testFields, hm]
  · rw [hm, and_F00F_beq, h1, h2]
    simp [OpcodeRow.testFields, hm]
  · rw [hm, and_F0FF_beq, h1]
    simp [OpcodeRow.testFields, hm]

/-- Which row a word selects, by its fields (R46): on a literal family nibble this computes. -/
theorem selectRow_eq (w : Word) :
    selectRow w =
      if w = 0x00E0#16 then some ⟨0xFFFF, 0x00E0, fun _ => .cls⟩
      else if w = 0x00EE#16 then some ⟨0xFFFF, 0x00EE, fun _ => .ret⟩
      else rowsAfterFixed.find? fun r => r.testFields (fieldOp w) (fieldN w) (fieldKK w) := by
  have hsplit : opcodeTable =
      ⟨0xFFFF#16, 0x00E0#16, fun _ => .cls⟩ :: ⟨0xFFFF#16, 0x00EE#16, fun _ => .ret⟩ :: rowsAfterFixed := rfl
  have hcongr : rowsAfterFixed.find? (fun r => w &&& r.mask == r.pattern) =
      rowsAfterFixed.find? fun r => r.testFields (fieldOp w) (fieldN w) (fieldKK w) :=
    List.find?_congr (test_rowsAfterFixed w)
  rw [selectRow, hsplit, List.find?_cons, List.find?_cons, hcongr]
  simp only [and_FFFF]
  by_cases h1 : w = 0x00E0#16
  · simp [h1]
  · by_cases h2 : w = 0x00EE#16
    · simp [h2]
    · simp [h1, h2, beq_eq_false_iff_ne.mpr h1, beq_eq_false_iff_ne.mpr h2]

/-- Outside family 0 the word of CLS and the word of RET play no part. -/
theorem selectRow_of_op {w : Word} (h : fieldOp w ≠ 0) :
    selectRow w = rowsAfterFixed.find? fun r => r.testFields (fieldOp w) (fieldN w) (fieldKK w) := by
  rw [selectRow_eq, if_neg (by rintro rfl; exact h rfl), if_neg (by rintro rfl; exact h rfl)]

end Sys2Proof
end

