-- ==== Sys2Proof/Laws/PerInstr.lean ====
section
/-! SUPPORT. Per instruction: its encoding matches its own row of R46, `w & mask = match`. -/

namespace Sys2Proof.Laws.EncodesToItsRow

/-- Mask and match of the instruction's row in R46. -/
def rowOf : Instr → Word × Word
  | .cls => (0xFFFF, 0x00E0)
  | .ret => (0xFFFF, 0x00EE)
  | .sys _ => (0xF000, 0x0000)
  | .jp _ => (0xF000, 0x1000)
  | .call _ => (0xF000, 0x2000)
  | .seImm _ _ => (0xF000, 0x3000)
  | .sneImm _ _ => (0xF000, 0x4000)
  | .seReg _ _ => (0xF00F, 0x5000)
  | .ldImm _ _ => (0xF000, 0x6000)
  | .addImm _ _ => (0xF000, 0x7000)
  | .ldReg _ _ => (0xF00F, 0x8000)
  | .orReg _ _ => (0xF00F, 0x8001)
  | .andReg _ _ => (0xF00F, 0x8002)
  | .xorReg _ _ => (0xF00F, 0x8003)
  | .addReg _ _ => (0xF00F, 0x8004)
  | .subReg _ _ => (0xF00F, 0x8005)
  | .shr _ _ => (0xF00F, 0x8006)
  | .subnReg _ _ => (0xF00F, 0x8007)
  | .shl _ _ => (0xF00F, 0x800E)
  | .sneReg _ _ => (0xF00F, 0x9000)
  | .ldI _ => (0xF000, 0xA000)
  | .jpV0 _ => (0xF000, 0xB000)
  | .rnd _ _ => (0xF000, 0xC000)
  | .drw _ _ _ => (0xF000, 0xD000)
  | .skp _ => (0xF0FF, 0xE09E)
  | .sknp _ => (0xF0FF, 0xE0A1)
  | .ldFromDt _ => (0xF0FF, 0xF007)
  | .ldKey _ => (0xF0FF, 0xF00A)
  | .ldDt _ => (0xF0FF, 0xF015)
  | .ldSt _ => (0xF0FF, 0xF018)
  | .addI _ => (0xF0FF, 0xF01E)
  | .ldF _ => (0xF0FF, 0xF029)
  | .ldB _ => (0xF0FF, 0xF033)
  | .stBulk _ => (0xF0FF, 0xF055)
  | .ldBulk _ => (0xF0FF, 0xF065)

/-- A well-formed instruction's word matches its row of R46. -/
def Statement (i : Instr) : Prop := i.WellFormed → encode i &&& (rowOf i).1 = (rowOf i).2

theorem cls : Statement (.cls) := fun _ => rfl
theorem ret : Statement (.ret) := fun _ => rfl
theorem sys (nnn : Addr12) : Statement (.sys nnn) :=
  fun _ => (and_F000_eq_iff _ 0x0).mpr (fieldOp_encNNN 0x0 nnn)
theorem jp (nnn : Addr12) : Statement (.jp nnn) :=
  fun _ => (and_F000_eq_iff _ 0x1).mpr (fieldOp_encNNN 0x1 nnn)
theorem call (nnn : Addr12) : Statement (.call nnn) :=
  fun _ => (and_F000_eq_iff _ 0x2).mpr (fieldOp_encNNN 0x2 nnn)
theorem seImm (x : Reg) (kk : Byte) : Statement (.seImm x kk) :=
  fun _ => (and_F000_eq_iff _ 0x3).mpr (fieldOp_encXKK 0x3 x kk)
theorem sneImm (x : Reg) (kk : Byte) : Statement (.sneImm x kk) :=
  fun _ => (and_F000_eq_iff _ 0x4).mpr (fieldOp_encXKK 0x4 x kk)
theorem seReg (x : Reg) (y : Reg) : Statement (.seReg x y) :=
  fun _ => (and_F00F_eq_iff _ 0x5 0x0).mpr ⟨fieldOp_encXYN 0x5 x y 0x0, fieldN_encXYN 0x5 x y 0x0⟩
theorem ldImm (x : Reg) (kk : Byte) : Statement (.ldImm x kk) :=
  fun _ => (and_F000_eq_iff _ 0x6).mpr (fieldOp_encXKK 0x6 x kk)
theorem addImm (x : Reg) (kk : Byte) : Statement (.addImm x kk) :=
  fun _ => (and_F000_eq_iff _ 0x7).mpr (fieldOp_encXKK 0x7 x kk)
theorem ldReg (x : Reg) (y : Reg) : Statement (.ldReg x y) :=
  fun _ => (and_F00F_eq_iff _ 0x8 0x0).mpr ⟨fieldOp_encXYN 0x8 x y 0x0, fieldN_encXYN 0x8 x y 0x0⟩
theorem orReg (x : Reg) (y : Reg) : Statement (.orReg x y) :=
  fun _ => (and_F00F_eq_iff _ 0x8 0x1).mpr ⟨fieldOp_encXYN 0x8 x y 0x1, fieldN_encXYN 0x8 x y 0x1⟩
theorem andReg (x : Reg) (y : Reg) : Statement (.andReg x y) :=
  fun _ => (and_F00F_eq_iff _ 0x8 0x2).mpr ⟨fieldOp_encXYN 0x8 x y 0x2, fieldN_encXYN 0x8 x y 0x2⟩
theorem xorReg (x : Reg) (y : Reg) : Statement (.xorReg x y) :=
  fun _ => (and_F00F_eq_iff _ 0x8 0x3).mpr ⟨fieldOp_encXYN 0x8 x y 0x3, fieldN_encXYN 0x8 x y 0x3⟩
theorem addReg (x : Reg) (y : Reg) : Statement (.addReg x y) :=
  fun _ => (and_F00F_eq_iff _ 0x8 0x4).mpr ⟨fieldOp_encXYN 0x8 x y 0x4, fieldN_encXYN 0x8 x y 0x4⟩
theorem subReg (x : Reg) (y : Reg) : Statement (.subReg x y) :=
  fun _ => (and_F00F_eq_iff _ 0x8 0x5).mpr ⟨fieldOp_encXYN 0x8 x y 0x5, fieldN_encXYN 0x8 x y 0x5⟩
theorem shr (x : Reg) (y : Reg) : Statement (.shr x y) :=
  fun _ => (and_F00F_eq_iff _ 0x8 0x6).mpr ⟨fieldOp_encXYN 0x8 x y 0x6, fieldN_encXYN 0x8 x y 0x6⟩
theorem subnReg (x : Reg) (y : Reg) : Statement (.subnReg x y) :=
  fun _ => (and_F00F_eq_iff _ 0x8 0x7).mpr ⟨fieldOp_encXYN 0x8 x y 0x7, fieldN_encXYN 0x8 x y 0x7⟩
theorem shl (x : Reg) (y : Reg) : Statement (.shl x y) :=
  fun _ => (and_F00F_eq_iff _ 0x8 0xE).mpr ⟨fieldOp_encXYN 0x8 x y 0xE, fieldN_encXYN 0x8 x y 0xE⟩
theorem sneReg (x : Reg) (y : Reg) : Statement (.sneReg x y) :=
  fun _ => (and_F00F_eq_iff _ 0x9 0x0).mpr ⟨fieldOp_encXYN 0x9 x y 0x0, fieldN_encXYN 0x9 x y 0x0⟩
theorem ldI (nnn : Addr12) : Statement (.ldI nnn) :=
  fun _ => (and_F000_eq_iff _ 0xA).mpr (fieldOp_encNNN 0xA nnn)
theorem jpV0 (nnn : Addr12) : Statement (.jpV0 nnn) :=
  fun _ => (and_F000_eq_iff _ 0xB).mpr (fieldOp_encNNN 0xB nnn)
theorem rnd (x : Reg) (kk : Byte) : Statement (.rnd x kk) :=
  fun _ => (and_F000_eq_iff _ 0xC).mpr (fieldOp_encXKK 0xC x kk)
theorem drw (x : Reg) (y : Reg) (n : Nibble) : Statement (.drw x y n) :=
  fun _ => (and_F000_eq_iff _ 0xD).mpr (fieldOp_encXYN 0xD x y n)
theorem skp (x : Reg) : Statement (.skp x) :=
  fun _ => (and_F0FF_eq_iff _ 0xE 0x9E).mpr ⟨fieldOp_encXKK 0xE x 0x9E, fieldKK_encXKK 0xE x 0x9E⟩
theorem sknp (x : Reg) : Statement (.sknp x) :=
  fun _ => (and_F0FF_eq_iff _ 0xE 0xA1).mpr ⟨fieldOp_encXKK 0xE x 0xA1, fieldKK_encXKK 0xE x 0xA1⟩
theorem ldFromDt (x : Reg) : Statement (.ldFromDt x) :=
  fun _ => (and_F0FF_eq_iff _ 0xF 0x07).mpr ⟨fieldOp_encXKK 0xF x 0x07, fieldKK_encXKK 0xF x 0x07⟩
theorem ldKey (x : Reg) : Statement (.ldKey x) :=
  fun _ => (and_F0FF_eq_iff _ 0xF 0x0A).mpr ⟨fieldOp_encXKK 0xF x 0x0A, fieldKK_encXKK 0xF x 0x0A⟩
theorem ldDt (x : Reg) : Statement (.ldDt x) :=
  fun _ => (and_F0FF_eq_iff _ 0xF 0x15).mpr ⟨fieldOp_encXKK 0xF x 0x15, fieldKK_encXKK 0xF x 0x15⟩
theorem ldSt (x : Reg) : Statement (.ldSt x) :=
  fun _ => (and_F0FF_eq_iff _ 0xF 0x18).mpr ⟨fieldOp_encXKK 0xF x 0x18, fieldKK_encXKK 0xF x 0x18⟩
theorem addI (x : Reg) : Statement (.addI x) :=
  fun _ => (and_F0FF_eq_iff _ 0xF 0x1E).mpr ⟨fieldOp_encXKK 0xF x 0x1E, fieldKK_encXKK 0xF x 0x1E⟩
theorem ldF (x : Reg) : Statement (.ldF x) :=
  fun _ => (and_F0FF_eq_iff _ 0xF 0x29).mpr ⟨fieldOp_encXKK 0xF x 0x29, fieldKK_encXKK 0xF x 0x29⟩
theorem ldB (x : Reg) : Statement (.ldB x) :=
  fun _ => (and_F0FF_eq_iff _ 0xF 0x33).mpr ⟨fieldOp_encXKK 0xF x 0x33, fieldKK_encXKK 0xF x 0x33⟩
theorem stBulk (x : Reg) : Statement (.stBulk x) :=
  fun _ => (and_F0FF_eq_iff _ 0xF 0x55).mpr ⟨fieldOp_encXKK 0xF x 0x55, fieldKK_encXKK 0xF x 0x55⟩
theorem ldBulk (x : Reg) : Statement (.ldBulk x) :=
  fun _ => (and_F0FF_eq_iff _ 0xF 0x65).mpr ⟨fieldOp_encXKK 0xF x 0x65, fieldKK_encXKK 0xF x 0x65⟩

end Sys2Proof.Laws.EncodesToItsRow
end

