-- ==== Sys2Proof/Tests/Slice0.lean ====
section
/-! SUPPORT. The model's own tests: ill-formed terms refused, words written out from R46 decoded, one step each from the
vectors of spec/95_test_vectors.md (named in each comment), and a witness for every statement that has hypotheses. -/

namespace Sys2Proof.Tests

open Sys2Proof Sys2Proof.Machine

set_option Elab.async false

/-! ### Helpers -/

/-- The reset state with some registers set. -/
def regs (l : List (Reg × Byte)) : State := l.foldl (fun s p => s.setV p.1 p.2) State.reset

/-- The reset state with some bytes of memory set. -/
def bytes (l : List (Word × Byte)) (s : State) : State := l.foldl (fun s p => s.writeByte p.1 p.2) s

/-- One part of the state after one step on the word `w`, placed where the step fetches. -/
def after {α : Type} (w : Nat) (s : State) (part : State → α) : Option α :=
  match step (s.withFetchWord 16 w) with
  | .next t => some (part t)
  | .fault _ => none
  | .refused _ => none

/-- The lit pixels of row `cy`, as a list of columns. -/
def litRow (cy : Nat) (s : State) : List Nat := (List.range 64).filter fun cx => s.fb.pixel cx cy

/-! ### WellFormed: the one check, SYS, refuses the words of CLS and RET (R46, R88) -/

theorem test_sys_0E0_ill_formed : ¬ (Instr.sys 0x0E0).WellFormed := by decide
theorem test_sys_0EE_ill_formed : ¬ (Instr.sys 0x0EE).WellFormed := by decide
theorem test_sys_0E1_well_formed : (Instr.sys 0x0E1).WellFormed := by decide

/-! ### Decoding words written out bit by bit from R46's encodings, every constructor -/

theorem test_decode_family_0 :
    decode 0b0000000011100000 = .ok .cls ∧ decode 0b0000000011101110 = .ok .ret ∧
    decode 0b0000000100100011 = .ok (.sys 0x123) ∧ decode 0b0000000011101111 = .ok (.sys 0x0EF) := by decide +kernel

theorem test_decode_families_1_to_5 :
    decode 0b0001001000110100 = .ok (.jp 0x234) ∧ decode 0b0010001100000000 = .ok (.call 0x300) ∧
    decode 0b0011001100101010 = .ok (.seImm 3 0x2A) ∧ decode 0b0100001100101010 = .ok (.sneImm 3 0x2A) ∧
    decode 0b0101000100100000 = .ok (.seReg 1 2) := by decide +kernel

theorem test_decode_families_6_7 :
    decode 0b0110101000101100 = .ok (.ldImm 0xA 0x2C) ∧ decode 0b0111001000100000 = .ok (.addImm 2 0x20) := by
  decide +kernel

theorem test_decode_family_8 :
    decode 0b1000001101000000 = .ok (.ldReg 3 4) ∧ decode 0b1000000100100001 = .ok (.orReg 1 2) ∧
    decode 0b1000000100100010 = .ok (.andReg 1 2) ∧ decode 0b1000000100100011 = .ok (.xorReg 1 2) ∧
    decode 0b1000000100100100 = .ok (.addReg 1 2) ∧ decode 0b1000000100100101 = .ok (.subReg 1 2) ∧
    decode 0b1000000100100110 = .ok (.shr 1 2) ∧ decode 0b1000000100100111 = .ok (.subnReg 1 2) ∧
    decode 0b1000000100101110 = .ok (.shl 1 2) := by decide +kernel

theorem test_decode_families_9_to_D :
    decode 0b1001000100100000 = .ok (.sneReg 1 2) ∧ decode 0b1010001011110000 = .ok (.ldI 0x2F0) ∧
    decode 0b1011001100000000 = .ok (.jpV0 0x300) ∧ decode 0b1100001100001111 = .ok (.rnd 3 0x0F) ∧
    decode 0b1101000100100101 = .ok (.drw 1 2 5) := by decide +kernel

theorem test_decode_families_E_F :
    decode 0b1110010110011110 = .ok (.skp 5) ∧ decode 0b1110010110100001 = .ok (.sknp 5) ∧
    decode 0b1111010000000111 = .ok (.ldFromDt 4) ∧ decode 0b1111001100001010 = .ok (.ldKey 3) ∧
    decode 0b1111010000010101 = .ok (.ldDt 4) ∧ decode 0b1111010000011000 = .ok (.ldSt 4) ∧
    decode 0b1111000100011110 = .ok (.addI 1) ∧ decode 0b1111001000101001 = .ok (.ldF 2) ∧
    decode 0b1111000000110011 = .ok (.ldB 0) ∧ decode 0b1111000101010101 = .ok (.stBulk 1) ∧
    decode 0b1111001001100101 = .ok (.ldBulk 2) := by decide +kernel

/-- SY6, SY9, SY10, SY11, SY15, SY16: unrecognised words are refused by name (R47). -/
theorem test_decode_unrecognised :
    decode 0x8AB9 = .error (.unrecognised 0x8AB9) ∧ decode 0x5121 = .error (.unrecognised 0x5121) ∧
    decode 0x912F = .error (.unrecognised 0x912F) ∧ decode 0xE09F = .error (.unrecognised 0xE09F) ∧
    decode 0xF075 = .error (.unrecognised 0xF075) ∧ decode 0xF01F = .error (.unrecognised 0xF01F) := by decide +kernel

/-- The first byte in memory is the high one (R31), and fewer than two bytes are no instruction. -/
theorem test_decode_bytes :
    decodeBytes [0x12, 0x34, 0x99] = .ok (.jp 0x234, [0x99]) ∧ decodeBytes [0x12] = .error .truncated ∧
    decodeTableWord 16 0x1234 = some (.jp 0x234) ∧ decodeTableWord 16 0x8AB9 = none := by decide +kernel

/-! ### Control flow -/

theorem test_CF1_jp : after 0x1234 State.reset (·.pc) = some 0x234 := by decide +kernel
theorem test_CF5_call :
    after 0x2300 (State.reset.push 0x206) (fun t => (t.pc, t.stack)) = some (0x300, [0x206, 0x202]) := by decide +kernel
theorem test_CF8_ret :
    after 0x00EE ((State.reset.push 0x206).push 0x400) (fun t => (t.pc, t.stack, t.fault)) =
      some (0x400, [0x206], none) := by decide +kernel
theorem test_CF9_ret_underflow :
    after 0x00EE State.reset (fun t => (t.pc, t.stack, t.fault)) = some (0x202, [], some .stackUnderflow) := by
  decide +kernel
theorem test_CF10_CF11_seImm :
    after 0x332A (regs [(3, 0x2A)]) (·.pc) = some 0x204 ∧ after 0x332A (regs [(3, 0x2B)]) (·.pc) = some 0x202 := by
  decide +kernel
theorem test_CF12_CF13_sneImm :
    after 0x432A (regs [(3, 0x2A)]) (·.pc) = some 0x202 ∧ after 0x432A State.reset (·.pc) = some 0x204 := by
  decide +kernel
theorem test_CF14_CF15_seReg :
    after 0x5120 (regs [(1, 7), (2, 7)]) (·.pc) = some 0x204 ∧
    after 0x5120 (regs [(1, 7), (2, 8)]) (·.pc) = some 0x202 := by decide +kernel
theorem test_CF17_CF18_sneReg :
    after 0x9120 (regs [(1, 7), (2, 8)]) (·.pc) = some 0x204 ∧
    after 0x9120 (regs [(1, 7), (2, 7)]) (·.pc) = some 0x202 := by decide +kernel
theorem test_CF21_jpV0 : after 0xBFFF (regs [(0, 0xFF)]) (·.pc) = some 0x10FE := by decide +kernel
theorem test_CF22_jpV0_always_V0 : after 0xB300 (regs [(0, 4), (3, 0x10)]) (·.pc) = some 0x304 := by decide +kernel

/-! ### Register and arithmetic -/

theorem test_RG2_ldImm_VF : after 0x6F2C (regs [(15, 1)]) (·.getV 15) = some 0x2C := by decide +kernel
theorem test_RG3_addImm :
    after 0x7220 (regs [(2, 0xF0), (15, 1)]) (fun t => (t.getV 2, t.getV 15)) = some (0x10, 1) := by decide +kernel
theorem test_RG7_ldReg :
    after 0x8340 (regs [(4, 0x99), (15, 1)]) (fun t => (t.getV 3, t.getV 15)) = some (0x99, 1) := by decide +kernel
theorem test_RG8_or :
    after 0x8121 (regs [(1, 0x0F), (2, 0xF0), (15, 1)]) (fun t => (t.getV 1, t.getV 15)) = some (0xFF, 0) := by
  decide +kernel
theorem test_RG12_or_into_VF : after 0x8F11 (regs [(1, 0xF0), (15, 0x0F)]) (·.getV 15) = some 0 := by decide +kernel
theorem test_RG14_and :
    after 0x81F2 (regs [(1, 0xFF), (15, 0x0F)]) (fun t => (t.getV 1, t.getV 15)) = some (0x0F, 0) := by decide +kernel
theorem test_RG10_xor :
    after 0x8123 (regs [(1, 0xFF), (2, 0x0F), (15, 1)]) (fun t => (t.getV 1, t.getV 15)) = some (0xF0, 0) := by
  decide +kernel
theorem test_RG15_add_carry :
    after 0x8124 (regs [(1, 0xC8), (2, 0x64)]) (fun t => (t.getV 1, t.getV 15)) = some (0x2C, 1) := by decide +kernel
theorem test_RG18_add_no_carry :
    after 0x8124 (regs [(1, 0x80), (2, 0x7F), (15, 1)]) (fun t => (t.getV 1, t.getV 15)) = some (0xFF, 0) := by
  decide +kernel
theorem test_RG24_sub_borrow :
    after 0x8125 (regs [(1, 3), (2, 5), (15, 1)]) (fun t => (t.getV 1, t.getV 15)) = some (0xFE, 0) := by decide +kernel
theorem test_RG25_sub_equal :
    after 0x8125 (regs [(1, 7), (2, 7)]) (fun t => (t.getV 1, t.getV 15)) = some (0, 1) := by decide +kernel
theorem test_RG30_subn :
    after 0x8127 (regs [(1, 3), (2, 5)]) (fun t => (t.getV 1, t.getV 15)) = some (2, 1) := by decide +kernel
theorem test_RG31_subn_borrow :
    after 0x8127 (regs [(1, 5), (2, 3), (15, 1)]) (fun t => (t.getV 1, t.getV 15)) = some (0xFE, 0) := by decide +kernel
theorem test_RG33_shr :
    after 0x8126 (regs [(1, 0xFF), (2, 2)]) (fun t => (t.getV 1, t.getV 15)) = some (1, 1) := by decide +kernel
theorem test_RG34_shr :
    after 0x8126 (regs [(1, 2), (2, 0xFF), (15, 1)]) (fun t => (t.getV 1, t.getV 15)) = some (0x7F, 0) := by
  decide +kernel
theorem test_RG39_shl :
    after 0x812E (regs [(1, 1), (2, 0xC1), (15, 1)]) (fun t => (t.getV 1, t.getV 15)) = some (0x82, 0) := by
  decide +kernel
theorem test_RG43_shl_into_VF : after 0x8F1E (regs [(1, 1), (15, 0x80)]) (·.getV 15) = some 1 := by decide +kernel

/-! ### Random -/

/-- RN3, RN2: kk = 0 gives 0 and kk = 0xFF the byte supplied, whatever it is. -/
theorem test_RN3_rnd_zero_mask : after 0xC300 (regs [(3, 0x55)]) (·.getV 3) = some 0 := by
  show some (State.reset.rndByte &&& 0#8) = some 0#8
  rw [BitVec.and_zero]
theorem test_RN2_rnd_full_mask : after 0xC3FF State.reset (·.getV 3) = some State.reset.rndByte := by
  show some (State.reset.rndByte &&& BitVec.allOnes 8) = _
  rw [BitVec.and_allOnes]

/-! ### Index register and memory -/

theorem test_MM1_ldI : after 0xA2F0 State.reset (·.i) = some 0x2F0 := by decide +kernel
theorem test_MM2_addI : after 0xF11E ((regs [(1, 5)]).setI 0x0FFE) (·.i) = some 0x1003 := by decide +kernel
theorem test_MM3_addI_wraps :
    after 0xF11E ((regs [(1, 1)]).setI 0xFFFF) (fun t => (t.i, t.getV 15)) = some (0, 0) := by decide +kernel

/-- MM8: no masking, the byte after the font (R75, decision D7). -/
theorem test_MM8_ldF : after 0xF229 (regs [(2, 0x10)]) (·.i) = some (BitVec.ofNat 16 (Config.fontBase.val + 80)) := rfl

theorem test_MM10_ldB :
    after 0xF033 ((regs [(0, 0xCD)]).setI 0x300) (fun t => (t.readByte 0x300, t.readByte 0x301, t.readByte 0x302, t.i)) =
      some (2, 0, 5, 0x300) := by decide +kernel
theorem test_MM12_ldB_leading_zeros :
    after 0xF033 ((bytes [(0x300, 0xEE), (0x301, 0xEE)] (regs [(0, 9)])).setI 0x300)
      (fun t => (t.readByte 0x300, t.readByte 0x301, t.readByte 0x302)) = some (0, 0, 9) := by decide +kernel
theorem test_MM16_stBulk :
    after 0xF155 ((regs [(0, 0x12), (1, 8), (2, 0x77)]).setI 0x300)
      (fun t => (t.readByte 0x300, t.readByte 0x301, t.readByte 0x302, t.i)) = some (0x12, 8, 0, 0x302) := by
  decide +kernel

/-- MM19: the second byte wraps to 0x000, and I is not masked. -/
theorem test_MM19_stBulk_wraps :
    Memory.read ((((regs [(0, 0x12), (1, 8)]).setI 0x0FFF).storeRegs (regsUpTo 1)).mem) 0x000 = 8 ∧
    ((regs []).setI 0x0FFF).iAfterBulk 1 = 0x1001 := by
  refine ⟨?_, by decide⟩
  have h : ((regs [(0, 0x12), (1, 8)]).setI 0x0FFF).MemCanonical := by unfold State.MemCanonical; decide +kernel
  exact State.read_storeRegs_mem h (r := 1) (by decide)

theorem test_MM20_ldBulk :
    after 0xF265 ((bytes [(0x300, 2), (0x302, 5), (0x303, 9)] (regs [(1, 0x66), (3, 0x77)])).setI 0x300)
      (fun t => (t.getV 0, t.getV 1, t.getV 2, t.getV 3, t.i)) = some (2, 0, 5, 0x77, 0x303) := by decide +kernel

/-- FE2: the second byte of the word is read from physical 0x000. -/
theorem test_FE2_fetch_wraps :
    after 0x6A2C (State.reset.setPc 0x0FFF) (fun t => (t.getV 10, t.pc)) = some (0x2C, 0x1001) := by
  have h : ((State.reset.setPc 0x0FFF).withFetchWord 16 0x6A2C).fetchWord = 0x6A2C :=
    State.fetchWord_withFetchWord (by unfold State.MemCanonical; decide) 16 0x6A2C
  have hd : decode 0x6A2C = .ok (.ldImm 0xA 0x2C) := by decide +kernel
  rw [after, step_of_decode rfl (h ▸ hd)]
  rfl

/-! ### Keys -/

theorem test_KY4_skp : after 0xE59E ((regs [(5, 0x1A)]).setKey 10 true) (·.pc) = some 0x204 := by decide +kernel
theorem test_KY3_skp_other_key : after 0xE59E ((regs [(5, 7)]).setKey 8 true) (·.pc) = some 0x202 := by decide +kernel
theorem test_KY7_sknp : after 0xE5A1 ((regs [(5, 0xF7)]).setKey 7 true) (·.pc) = some 0x202 := by decide +kernel
theorem test_KY5_sknp : after 0xE5A1 (regs [(5, 7)]) (·.pc) = some 0x204 := by decide +kernel
theorem test_KY9_ldKey_press :
    after 0xF30A ((State.reset.setKey 9 true).setKey 3 true) (fun t => (t.pc, t.wait, t.getV 3)) =
      some (0x200, some 3, 0) := by decide +kernel
theorem test_KY11_ldKey_release :
    after 0xF30A ((State.reset.setKey 2 true).setWait (some 7)) (fun t => (t.pc, t.wait, t.getV 3)) =
      some (0x202, none, 7) := by decide +kernel

/-! ### Timers -/

theorem test_TM1_ldFromDt : after 0xF407 (State.reset.setDt 0x3C) (fun t => (t.getV 4, t.dt)) = some (0x3C, 0x3C) := by
  decide +kernel
theorem test_TM2_ldDt : after 0xF415 (regs [(4, 0x3C)]) (fun t => (t.dt, t.st)) = some (0x3C, 0) := by decide +kernel
theorem test_TM4_ldSt : after 0xF418 ((regs [(4, 5)]).setDt 0x10) (fun t => (t.dt, t.st)) = some (5, 0) := by
  decide +kernel

/-! ### Display -/

theorem test_DS1_cls :
    after 0x00E0 ((regs [(15, 1)]).present (Framebuffer.blank.setPixel 63 31 true)).dirtyClear
      (fun t => (litRow 31 t, t.dirty, t.getV 15)) = some ([], true, 1) := by decide +kernel
theorem test_DS7_drw :
    after 0xD122 ((bytes [(0x300, 0xFF), (0x301, 0xFF)] (regs [(1, 0x7E), (2, 0x3F)])).setI 0x300)
      (fun t => (litRow 31 t, litRow 0 t, t.getV 15, t.dirty)) = some ([62, 63], [], 0, true) := by decide +kernel
theorem test_DS12_drw_collision :
    after 0xD121 ((bytes [(0x300, 0xF0)] (State.reset.present
      ((Framebuffer.blank.setPixel 3 0 true).setPixel 4 0 true))).setI 0x300)
      (fun t => (litRow 0 t, litRow 1 t, t.getV 15)) = some ([0, 1, 2, 4], [], 1) := by decide +kernel

/-! ### SYS and unrecognised words -/

theorem test_SY2_sys : after 0x0123 (regs [(0, 0x11)]) (fun t => (t.pc, t.getV 0, t.stack)) = some (0x202, 0x11, []) := by
  decide +kernel
theorem test_SY9_unrecognised : after 0x5121 (regs [(1, 0x22), (2, 0x22)]) (·.pc) = some 0x202 := by decide +kernel

/-! ### The fault and the host's operations -/

/-- HO9: the step is inert under a fault. -/
theorem test_HO9_step_under_fault : step (State.reset.raise .stackUnderflow) = .next (State.reset.raise .stackUnderflow) :=
  rfl
/-- HO1, HO2: a timer at 0 stays there. -/
theorem test_HO1_HO2_tick : (State.reset.setDt 3).tick.dt = 2 ∧ State.reset.tick.dt = 0 := by decide
/-- HO5, HO6: 15 is the highest index, 16 is ignored. -/
theorem test_HO5_HO6_key_set :
    (State.reset.keySet 15 true).keyDown 15 = true ∧ State.reset.keySet 16 true = State.reset := by decide +kernel
/-- E9: 3585 bytes are rejected. -/
theorem test_E9_rom_rejected : State.reset.romLoad (List.replicate 3585 0xAA) = .error .romTooLarge :=
  if_pos (by rw [List.length_replicate]; decide)
/-- E9: 3584 bytes are accepted, the first and the last in place. -/
theorem test_E9_rom_accepted :
    (∃ t, State.reset.romLoad (List.replicate 3584 0xAA) = .ok t) ∧
    ∀ a, 0x200 ≤ a → a < 0x1000 → Memory.read (State.reset.writeBytes 0x200 (List.replicate 3584 0xAA)).mem a = 0xAA := by
  have e : (0x200 : Word).toNat = 0x200 := by decide
  have h : State.reset.MemCanonical := by unfold State.MemCanonical; decide
  refine ⟨⟨_, if_neg (by rw [List.length_replicate]; decide)⟩, fun a h1 h2 => ?_⟩
  rw [State.read_writeBytes h _ _ (by rw [List.length_replicate]; decide), dif_pos]
  · rw [List.getElem_replicate]
  · rw [List.length_replicate, e]
    omega

/-! ### Witnesses: for each statement that has hypotheses, data that meet all of them together -/

/-- A small state standing at the instruction word `w`. -/
def at' (w : Nat) : State := State.reset.withFetchWord 16 w

theorem witness_DecodeInvertsEncode : (Instr.sys 0xFFF).WellFormed ∧ (Instr.drw 15 15 0xF).WellFormed := by decide
theorem witness_EncodeInvertsDecode : decode 0xDFFF = .ok (.drw 15 15 0xF) := by decide +kernel
theorem witness_DecoderRefuses : UnrecognisedWord 0x5001 ∧ UnrecognisedWord 0xFFFF ∧ ¬ UnrecognisedWord 0x5000 := by
  unfold UnrecognisedWord
  decide +kernel
theorem witness_StepRuns_fault : (State.reset.raise .stackUnderflow).fault ≠ none := by decide
theorem witness_StepRuns_ok : (at' 0xDFFF).fault = none ∧ decode (at' 0xDFFF).fetchWord = .ok (.drw 15 15 0xF) := by
  decide +kernel
theorem witness_Unrecognised : (at' 0xFFFF).fault = none ∧ UnrecognisedWord (at' 0xFFFF).fetchWord := by
  unfold UnrecognisedWord
  decide +kernel
theorem witness_AccessMatrix : ∃ t, exec .cls State.reset = .next t ∧ Part.v ∉ writesOf .cls := ⟨_, rfl, by decide⟩
theorem witness_OnlyFlagWriters : ∃ t, step (at' 0x6F01) = .next t ∧ t.v[15] ≠ (at' 0x6F01).v[15] :=
  ⟨(at' 0x6F01).advance.setV 15 1, rfl, by decide +kernel⟩
theorem witness_RetPops : (State.reset.push 0xFFFF).stack = [] ++ [0xFFFF] ∧ State.reset.stack = [] := by decide
theorem witness_RetUndoesCall : ∃ t u, exec (.call 0xFFF) State.reset = .next t ∧ State.stack u = t.stack :=
  ⟨_, _, rfl, rfl⟩
theorem witness_Sys : (at' 0x0FFF).fault = none ∧ (at' 0x0FFF).fetchWord.toNat < 0x1000 ∧
    (at' 0x0FFF).fetchWord ≠ 0x00E0 ∧ (at' 0x0FFF).fetchWord ≠ 0x00EE := by decide +kernel
theorem witness_SelfJump : ((State.reset.setPc 0x0FFE).withFetchWord 16 0x1FFE).AtSelfJump := by
  unfold State.AtSelfJump
  decide +kernel
theorem witness_Rnd : (0xFF : Byte) = 0xFF ∧ (0 : Byte) = 0 ∧ (14 : Reg) ≠ 15 := by decide
/-- The last digit in VF, and LD F, VF fetched next. -/
def atLdF : State := (regs [(15, 15)]).withFetchWord 16 0xFF29
theorem atLdF_mem : atLdF.mem = [(0x200, 0xFF), (0x201, 0x29)] := by decide +kernel
theorem witness_FontAddress_fetched : atLdF.fault = none ∧ decode atLdF.fetchWord = .ok (.ldF 15) := by decide +kernel
theorem witness_FontAddress : atLdF.advance.FontInPlace ∧ atLdF.advance.v[15].toNat ≤ 15 := by
  refine ⟨fun k hk => ?_, by decide +kernel⟩
  have := Config.fontBase.isLt
  rw [State.advance_mem, atLdF_mem, Memory.read, if_neg (by omega), Memory.read, if_neg (by omega)]
  exact Memory.some_unlisted_font hk
theorem witness_FontIsInPlace : ∃ t, State.reset.MemCanonical ∧ State.reset.FontInPlace ∧
    State.reset.romLoad [0xFF, 0x29] = .ok t :=
  ⟨State.reset.writeBytes 0x200 [0xFF, 0x29], rfl, fun _ hk => Memory.some_unlisted_font hk, rfl⟩
theorem witness_Bcd_BulkStore : (State.reset.setI 0xFFFF).MemCanonical := by unfold State.MemCanonical; decide
theorem witness_BulkLoad_above : (15 : Reg) ≤ 15 ∧ (14 : Reg) < 15 := by decide
theorem witness_RoundTrip :
    ∃ t, exec (.stBulk 15) (State.reset.setI 0xFFFF) = .next t ∧ (State.reset.setI 0xFFFF).MemCanonical :=
  ⟨_, rfl, by unfold State.MemCanonical; decide⟩
theorem witness_StoredBytes :
    ∃ t, exec (.stBulk 15) ((State.reset.setPc 0xFFF).setI 0xFFF1) = .next t ∧
      ((State.reset.setPc 0xFFF).setI 0xFFF1).MemCanonical ∧ (14 : Reg) < 15 ∧
      (((State.reset.setPc 0xFFF).setI 0xFFF1).i.toNat + (14 : Reg).val) % 4096 =
        ((State.reset.setPc 0xFFF).setI 0xFFF1).pc.toNat % 4096 :=
  ⟨_, rfl, by unfold State.MemCanonical; decide⟩
theorem witness_KeySkips : (regs [(5, 0xFF)]).v[5].toNat % 16 = (15 : Key).val := by decide +kernel
theorem witness_KeyWait_none : State.reset.wait = none ∧ ∀ j : Key, State.reset.keys[j] = false := by decide +kernel
theorem witness_KeyWait_latch : (State.reset.setKey 15 true).wait = none ∧ (State.reset.setKey 15 true).keys[(15 : Key)] = true ∧
    ∀ j : Key, j < 15 → (State.reset.setKey 15 true).keys[j] = false := by decide +kernel
theorem witness_KeyWait_held :
    ((State.reset.setKey 15 true).setWait (some 15)).wait = some 15 ∧
    ((State.reset.setKey 15 true).setWait (some 15)).keys[(15 : Key)] = true := by decide +kernel
theorem witness_KeyWait_done :
    (State.reset.setWait (some 0)).wait = some 0 ∧ (State.reset.setWait (some 0)).keys[(0 : Key)] = false := by
  decide +kernel
theorem witness_BlockedKeyWait_none :
    (at' 0xF30A).fault = none ∧ decode (at' 0xF30A).fetchWord = .ok (.ldKey 3) ∧ (at' 0xF30A).wait = none ∧
    ∀ j : Key, (at' 0xF30A).keys[j] = false := by decide +kernel
theorem witness_BlockedKeyWait_held :
    (((at' 0xF30A).setKey 15 true).setWait (some 15)).fault = none ∧
    decode (((at' 0xF30A).setKey 15 true).setWait (some 15)).fetchWord = .ok (.ldKey 3) ∧
    (((at' 0xF30A).setKey 15 true).setWait (some 15)).wait = some 15 ∧
    (((at' 0xF30A).setKey 15 true).setWait (some 15)).keys[(15 : Key)] = true := by decide +kernel
theorem witness_WaitStays :
    ∃ t, (∀ bytes, HostOp.step ≠ .romLoad bytes) ∧ ((at' 0xF30A).setWait (some 15)).WaitAtKeyWait ∧
      applyOp .step ((at' 0xF30A).setWait (some 15)) = .next t :=
  ⟨(((at' 0xF30A).advance).setV 3 15).setWait none, by simp, fun _ => ⟨3, by decide +kernel⟩, rfl⟩
theorem witness_SoundTimer : ∃ t, State.reset.st = 0 ∧ runOps [.tick, .reset] State.reset = .next t := ⟨_, rfl, rfl⟩
theorem witness_Tick :
    0 < (State.reset.setDt 1).dt.toNat ∧ State.reset.dt.toNat = 0 ∧ 0 < (State.reset.setSt 0xFF).st.toNat ∧
    State.reset.st.toNat = 0 := by decide
/-- A screen with the corner pixel lit, and a sprite whose first bit falls on it. -/
def corner : State :=
  (bytes [(0x300, 0x80)] ((regs [(1, 63), (2, 31)]).present (Framebuffer.blank.setPixel 63 31 true))).setI 0x300
theorem witness_Draw_collision :
    corner.fb[(63 : Fin 64)][(31 : Fin 32)] = true ∧ corner.spriteBit 1 2 1 63 31 = true := by decide +kernel
theorem witness_Draw_no_collision (cx : Fin 64) (cy : Fin 32) (h : State.reset.fb[cx][cy] = true) :
    State.reset.spriteBit 1 2 15 cx.val cy.val = false := by
  simp [State.reset] at h
theorem witness_DrawingTwice :
    ∃ t, exec (.drw 1 2 1) (corner.present Framebuffer.blank) = .next t ∧
      (corner.present Framebuffer.blank).spriteBit 1 2 1 63 31 = true ∧
      ∀ (cx : Fin 64) (cy : Fin 32), (corner.present Framebuffer.blank).fb[cx][cy] = false :=
  ⟨_, rfl, by decide +kernel, fun cx cy => by simp [State.present, Framebuffer.blank]⟩
theorem witness_OnlyRet : (at' 0x00EE).fault = none ∧ (at' 0x00EE).fetchWord = 0x00EE ∧ (at' 0x00EE).stack = [] := by
  decide +kernel
theorem witness_OnlyRet_fault : ∃ t, step (at' 0x00EE) = .next t ∧ t.fault ≠ none :=
  ⟨(at' 0x00EE).advance.raise .stackUnderflow, rfl, by decide⟩
theorem witness_FaultStops :
    ((State.reset.setDt 1).raise .stackUnderflow).fault ≠ none ∧ HostOp.keySet 15 true ≠ .reset ∧
    0 < ((State.reset.setDt 1).raise .stackUnderflow).dt.toNat := by decide
theorem witness_RomLoad :
    State.reset.MemCanonical ∧ 3584 < (List.replicate 3585 (0xAA : Byte)).length ∧
    (List.replicate 3584 (0xAA : Byte)).length ≤ 3584 := by
  refine ⟨rfl, ?_, ?_⟩ <;> rw [List.length_replicate]
  decide
theorem witness_KeySet : 15 < 16 ∧ (15 : Key).val = 15 ∧ (14 : Key) ≠ 15 := by decide
theorem witness_Reset : (79 < 80 ∧ 4095 < 4096) ∧ Config.fontBase.val + 80 ≤ 0x200 := by
  have := Config.fontBase.isLt
  omega
theorem witness_MemoryStays : ∃ t, State.reset.MemCanonical ∧ applyOp (.romLoad [0x12, 0x00]) State.reset = .next t :=
  ⟨State.reset.writeBytes 0x200 [0x12, 0x00], rfl, rfl⟩

end Sys2Proof.Tests
end

section
/-! Proofs about the state: what an instruction leaves alone (the access matrix, R23), who changes VF (R10), and the
invariants of WAIT (R19) and of ST (R15). -/

namespace Sys2Proof.Machine

/-! ### Frames as lists of columns

A frame is the list of the columns of R23 that may differ. One lemma per column written; the frame of an instruction is
composed from them along its updates. -/

/-- The two states agree in every column of the access matrix outside the list. -/
def KeepsAllBut (ps : List Part) (s t : State) : Prop := ∀ p : Part, p ∉ ps → SamePart p s t

section
variable {ps qs : List Part} {p : Part} {s t u : State}

theorem SamePart.refl (p : Part) (s : State) : SamePart p s s := by
  cases p <;> rfl

theorem SamePart.trans (h : SamePart p s t) (h' : SamePart p t u) : SamePart p s u := by
  cases p <;> exact Eq.trans h' h

theorem KeepsAllBut.refl (ps : List Part) (s : State) : KeepsAllBut ps s s := fun p _ => SamePart.refl p s

theorem KeepsAllBut.trans (h : KeepsAllBut ps s t) (h' : KeepsAllBut qs t u) : KeepsAllBut (ps ++ qs) s u :=
  fun p hp => (h p fun hm => hp (List.mem_append_left qs hm)).trans
    (h' p fun hm => hp (List.mem_append_right ps hm))

theorem KeepsAllBut.mono (h : KeepsAllBut ps s t) (hsub : ps ⊆ qs) : KeepsAllBut qs s t :=
  fun p hp => h p fun hm => hp (hsub hm)

end

section
variable (s : State)

theorem keepsAllBut_v (v : Vector Byte 16) : KeepsAllBut [.v] s { s with v := v } := by
  intro p hp
  cases p with
  | v => simp at hp
  | _ => rfl

theorem keepsAllBut_i (a : Word) : KeepsAllBut [.i] s { s with i := a } := by
  intro p hp
  cases p with
  | i => simp at hp
  | _ => rfl

theorem keepsAllBut_pc (a : Word) : KeepsAllBut [.pc] s { s with pc := a } := by
  intro p hp
  cases p with
  | pc => simp at hp
  | _ => rfl

theorem keepsAllBut_stack (st : List Word) : KeepsAllBut [.stack] s { s with stack := st } := by
  intro p hp
  cases p with
  | stack => simp at hp
  | _ => rfl

theorem keepsAllBut_mem (m : Memory) : KeepsAllBut [.mem] s { s with mem := m } := by
  intro p hp
  cases p with
  | mem => simp at hp
  | _ => rfl

theorem keepsAllBut_dt (b : Byte) : KeepsAllBut [.dt] s { s with dt := b } := by
  intro p hp
  cases p with
  | dt => simp at hp
  | _ => rfl

theorem keepsAllBut_present (fb : Framebuffer) : KeepsAllBut [.fb, .dirty] s (s.present fb) := by
  intro p hp
  cases p with
  | fb | dirty => simp at hp
  | _ => rfl

theorem keepsAllBut_wait (w : Option Key) : KeepsAllBut [.wait] s { s with wait := w } := by
  intro p hp
  cases p with
  | wait => simp at hp
  | _ => rfl

theorem keepsAllBut_fault (f : Option Fault) : KeepsAllBut [.fault] s { s with fault := f } := by
  intro p hp
  cases p with
  | fault => simp at hp
  | _ => rfl

/-- The draw counter is no column of the access matrix (log entry 2). -/
theorem keepsAllBut_drawn : KeepsAllBut [] s s.drawn := by
  intro p _
  cases p <;> rfl

theorem keepsAllBut_skipIf (c : Bool) : KeepsAllBut [.pc] s (s.skipIf c) := by
  cases c with
  | false => exact KeepsAllBut.refl _ s
  | true => exact keepsAllBut_pc s _

theorem keepsAllBut_loadRegs (rs : List Reg) : KeepsAllBut [.v] s (s.loadRegs rs) := by
  rw [State.loadRegs_frame]
  exact keepsAllBut_v s _

theorem keepsAllBut_storeRegs (rs : List Reg) : KeepsAllBut [.mem] s (s.storeRegs rs) := by
  rw [State.storeRegs_frame]
  exact keepsAllBut_mem s _

end

/-! ### The frame of every instruction -/

section
variable {s t : State}

theorem execRet_keepsAllBut (h : execRet s = .next t) : KeepsAllBut [.pc, .stack, .fault] s t := by
  obtain ⟨-, he⟩ | ⟨st, a, -, he⟩ := execRet_cases s <;> cases he.symm.trans h
  · exact (keepsAllBut_fault s _).mono (by simp)
  · exact ((keepsAllBut_stack s st).trans (keepsAllBut_pc _ a)).mono (by simp)

theorem execLdKey_keepsAllBut {x : Reg} (h : execLdKey x s = .next t) : KeepsAllBut [.v, .pc, .wait] s t := by
  obtain ⟨-, -, he⟩ | ⟨k, -, -, he⟩ | ⟨k, -, -, he⟩ | ⟨k, -, -, he⟩ := execLdKey_cases x s <;> cases he.symm.trans h
  · exact (keepsAllBut_pc s _).mono (by simp)
  · exact ((keepsAllBut_wait s _).trans (keepsAllBut_pc _ _)).mono (by simp)
  · exact (keepsAllBut_pc s _).mono (by simp)
  · exact ((keepsAllBut_v s _).trans (keepsAllBut_wait _ _)).mono (by simp)

/-- R23: the W entries of an instruction's row bound what it writes. -/
theorem exec_keepsAllBut_writesOf (i : Instr) (h : exec i s = .next t) : KeepsAllBut (writesOf i) s t := by
  cases i with
  | ret => exact execRet_keepsAllBut h
  | ldKey x => exact execLdKey_keepsAllBut h
  | sys nnn => cases h; exact KeepsAllBut.refl _ s
  | cls => cases h; exact keepsAllBut_present s _
  | drw x y n =>
    cases h
    exact ((keepsAllBut_present s _).trans (keepsAllBut_v _ _)).mono (by simp [writesOf])
  | jp nnn | jpV0 nnn => cases h; exact keepsAllBut_pc s _
  | call nnn =>
    cases h
    exact ((keepsAllBut_stack s _).trans (keepsAllBut_pc _ _)).mono (by simp [writesOf])
  | seImm x kk | sneImm x kk | seReg x y | sneReg x y | skp x | sknp x => cases h; exact keepsAllBut_skipIf s _
  | ldImm x kk | addImm x kk | ldReg x y | ldFromDt x
  | orReg x y | andReg x y | xorReg x y | addReg x y | subReg x y | subnReg x y | shr x y | shl x y =>
    cases h
    exact keepsAllBut_v s _
  | rnd x kk => cases h; exact (keepsAllBut_drawn s).trans (keepsAllBut_v _ _)
  | ldDt x | ldSt x => cases h; exact keepsAllBut_dt s _
  | ldI nnn | addI x | ldF x => cases h; exact keepsAllBut_i s _
  | ldB x => cases h; exact keepsAllBut_mem s _
  | stBulk x =>
    cases h
    exact ((keepsAllBut_storeRegs s _).trans (keepsAllBut_i _ _)).mono (by simp [writesOf])
  | ldBulk x => cases h; exact (keepsAllBut_loadRegs s _).trans (keepsAllBut_i _ _)

/-- The row of no instruction marks ST: FX18_TARGET is DT (R84). -/
theorem st_not_mem_writesOf (i : Instr) : Part.st ∉ writesOf i := by
  cases i <;> simp [writesOf]

/-- WAIT is marked W in the row of the key-wait alone (R23). -/
theorem wait_mem_writesOf_iff (i : Instr) : Part.wait ∈ writesOf i ↔ ∃ x, i = .ldKey x := by
  cases i <;> simp [writesOf]

/-! ### The frame of a step -/

/-- A step leaves alone every column but PC that the row of the fetched instruction does not mark W. -/
theorem step_samePart {p : Part} (h : step s = .next t) (hpc : p ≠ .pc)
    (hw : ∀ i, decode s.fetchWord = .ok i → p ∉ writesOf i) : SamePart p s t := by
  have hadv : SamePart p s s.advance := keepsAllBut_pc s _ p (by simpa using hpc)
  obtain ⟨-, rfl⟩ | ⟨-, i, hd, he⟩ | ⟨-, e, -, rfl⟩ := step_cases h
  · exact SamePart.refl p t
  · exact hadv.trans (exec_keepsAllBut_writesOf i he p (hw i hd))
  · exact hadv

theorem step_st (h : step s = .next t) : t.st = s.st :=
  step_samePart (p := .st) h (by decide) fun i _ => st_not_mem_writesOf i

theorem step_wait (h : step s = .next t) (hk : ¬ ∃ x, decode s.fetchWord = .ok (.ldKey x)) : t.wait = s.wait := by
  refine step_samePart (p := .wait) h (by decide) fun i hd hm => hk ?_
  obtain ⟨x, rfl⟩ := (wait_mem_writesOf_iff i).mp hm
  exact ⟨x, hd⟩

/-! ### The flag register -/

/-- An instruction that R10 does not name leaves VF alone: its destination, if it has one, is another register. -/
theorem exec_vf_of_not_mayWriteVF (i : Instr) (h : exec i s = .next t) (hx : mayWriteVF i = false) :
    t.getV 15 = s.getV 15 := by
  by_cases hv : Part.v ∈ writesOf i
  · cases i with
    | ldImm x kk | addImm x kk | ldReg x y | rnd x kk | ldFromDt x =>
      have hne : x ≠ 15 := by simpa [mayWriteVF] using hx
      cases h
      exact (State.getV_setV _ x 15 _).trans (if_neg hne.symm)
    | ldKey x =>
      have hne : x ≠ 15 := by simpa [mayWriteVF] using hx
      obtain ⟨-, -, he⟩ | ⟨k, -, -, he⟩ | ⟨k, -, -, he⟩ | ⟨k, -, -, he⟩ := execLdKey_cases x s <;>
        cases he.symm.trans h
      · rfl
      · rfl
      · rfl
      · rw [State.getV_setWait, State.getV_setV, if_neg hne.symm]
    | ldBulk x =>
      have hne : x ≠ 15 := by simpa [mayWriteVF] using hx
      have hmem : (15 : Reg) ∉ regsUpTo x := fun hm => hne (le_antisymm (Fin.le_last x) ((mem_regsUpTo x 15).mp hm))
      cases h
      rw [State.getV_setI, State.getV_loadRegs, if_neg hmem]
    | _ => simp_all [writesOf, mayWriteVF]
  · have hsame : t.v = s.v := exec_keepsAllBut_writesOf i h .v hv
    rw [State.getV, hsame, State.getV]

/-! ### The invariant of WAIT -/

theorem State.fetchWord_congr (hpc : t.pc = s.pc) (hmem : t.mem = s.mem) : t.fetchWord = s.fetchWord := by
  simp only [State.fetchWord, State.readByte, hpc, hmem]

theorem State.rewind_advance (s : State) : s.advance.rewind = s := by
  simp [State.rewind, State.advance, State.setPc]

/-- What changes neither PC, MEM nor WAIT keeps the invariant of WAIT. -/
theorem State.WaitAtKeyWait.congr (hs : s.WaitAtKeyWait) (hpc : t.pc = s.pc) (hmem : t.mem = s.mem)
    (hwait : t.wait = s.wait) : t.WaitAtKeyWait := by
  unfold State.WaitAtKeyWait
  rw [State.fetchWord_congr hpc hmem, hwait]
  exact hs

/-- A step of the key-wait delivers the key, or stays at the key-wait (R81). -/
theorem step_ldKey_stays {x : Reg} (h : step s = .next t) (hd : decode s.fetchWord = .ok (.ldKey x)) :
    t.wait = none ∨ t.fetchWord = s.fetchWord := by
  by_cases hf : s.fault = none
  · have h' : execLdKey x s.advance = .next t := (step_of_decode hf hd).symm.trans h
    obtain ⟨-, -, he⟩ | ⟨k, -, -, he⟩ | ⟨k, -, -, he⟩ | ⟨k, -, -, he⟩ := execLdKey_cases x s.advance <;>
      cases he.symm.trans h'
    · exact .inr (by rw [State.rewind_advance])
    · exact .inr (State.fetchWord_congr (by simp) rfl)
    · exact .inr (by rw [State.rewind_advance])
    · exact .inl rfl
  · cases (step_of_fault hf).symm.trans h
    exact .inr rfl

theorem step_waitAtKeyWait (hs : s.WaitAtKeyWait) (h : step s = .next t) : t.WaitAtKeyWait := by
  intro hw
  by_cases hk : ∃ x, decode s.fetchWord = .ok (.ldKey x)
  · obtain ⟨x, hd⟩ := hk
    obtain hnone | hfetch := step_ldKey_stays h hd
    · exact absurd hnone hw
    · exact ⟨x, by rw [hfetch, hd]⟩
  · rw [step_wait h hk] at hw
    exact absurd (hs hw) hk

/-! ### The host's operations -/

theorem State.keySet_cases (s : State) (idx : Nat) (b : Bool) :
    s.keySet idx b = s ∨ ∃ k : Key, s.keySet idx b = s.setKey k b := by
  by_cases hi : idx < 16
  · exact .inr ⟨⟨idx, hi⟩, dif_pos hi⟩
  · exact .inl (dif_neg hi)

/-- A load is rejected with nothing changed, or writes MEM (R40). -/
theorem applyOp_romLoad_cases {bytes : List Byte} (h : applyOp (.romLoad bytes) s = .next t) :
    t = s ∨ ∃ a, t = s.writeBytes a bytes := by
  by_cases hl : Config.romMax < bytes.length
  · simp only [applyOp, State.romLoad, if_pos hl, Host.Outcome.next.injEq] at h
    exact .inl h.symm
  · simp only [applyOp, State.romLoad, if_neg hl, Host.Outcome.next.injEq] at h
    exact .inr ⟨_, h.symm⟩

theorem State.writeBytes_st (s : State) (a : Word) (bytes : List Byte) : (s.writeBytes a bytes).st = s.st := by
  rw [State.writeBytes_frame]

theorem applyOp_st_zero (op : HostOp) (hs : s.st = 0) (h : applyOp op s = .next t) : t.st = 0 := by
  cases op with
  | reset => cases h; rfl
  | romLoad bytes =>
    obtain rfl | ⟨a, rfl⟩ := applyOp_romLoad_cases h
    · exact hs
    · rw [State.writeBytes_st, hs]
  | step => rw [step_st h, hs]
  | tick =>
    cases h
    rw [State.tick, State.setSt_st, hs]
    rfl
  | keySet idx b =>
    cases h
    obtain he | ⟨k, he⟩ := s.keySet_cases idx b <;> rw [he]
    · exact hs
    · exact hs
  | dirtyClear => cases h; exact hs

/-- What every operation of the host keeps, every schedule keeps. -/
theorem runOps_invariant {P : State → Prop}
    (hP : ∀ (op : HostOp) (s t : State), P s → applyOp op s = .next t → P t)
    (ops : List HostOp) (hs : P s) (h : runOps ops s = .next t) : P t := by
  induction ops generalizing s with
  | nil => cases h; exact hs
  | cons op ops ih =>
    unfold runOps at h
    split at h
    next u hu => exact ih (hP op s u hs hu) h
    next => cases h
    next => cases h

end

/-! ### The obligations -/

/-- Settles O36: where the fetched word is no key-wait, WAIT is none and stays none; a key-wait delivers its key or
rewinds PC to itself. -/
theorem waitStaysAtTheKeyWait : Obligations.WaitStaysAtTheKeyWait := by
  intro op s t hload hs h
  cases op with
  | reset => cases h; exact fun hw => absurd rfl hw
  | romLoad bytes => exact absurd rfl (hload bytes)
  | step => exact step_waitAtKeyWait hs h
  | tick => cases h; exact hs.congr rfl rfl rfl
  | keySet idx b =>
    cases h
    obtain he | ⟨k, he⟩ := s.keySet_cases idx b <;> rw [he]
    · exact hs
    · exact hs.congr rfl rfl rfl
  | dirtyClear => cases h; exact hs.congr rfl rfl rfl

/-- Settles O38: no row of the access matrix marks ST, and a tick leaves a timer that is 0. -/
theorem soundTimerStaysZero : Obligations.SoundTimerStaysZero :=
  fun ops _ _ => runOps_invariant (P := fun s => s.st = 0) (fun op _ _ => applyOp_st_zero op) ops

/-- Settles O9, by the frame of every instruction. -/
theorem accessMatrixBoundsWrites : Obligations.AccessMatrixBoundsWrites :=
  fun i _ _ h => exec_keepsAllBut_writesOf i h

/-- Settles O10: the one way for VF to change is the decoded instruction. -/
theorem onlyFlagWritersAndDestinationsChangeVF : Obligations.OnlyFlagWritersAndDestinationsChangeVF := by
  intro s t h hne
  obtain ⟨-, rfl⟩ | ⟨-, i, hd, he⟩ | ⟨-, e, -, rfl⟩ := step_cases h
  · exact absurd rfl hne
  · refine ⟨i, hd, ?_⟩
    by_contra hx
    exact hne (exec_vf_of_not_mayWriteVF (s := s.advance) i he (Bool.eq_false_iff.mpr hx))
  · exact absurd rfl hne

/-- Settles O49: the reset state is fixed, so each conjunct is a fact about its own fields. -/
theorem resetMeetsTheInvariants : Obligations.ResetMeetsTheInvariants :=
  ⟨rfl, fun hw => absurd rfl hw, rfl, rfl⟩

end Sys2Proof.Machine
end

section
/-! Proofs about memory: its canonical form under every operation (log entry 5), the fetch (R31), a fetch after a store
(R38), the ROM load (R40) and the font (R28, R75). -/

namespace Sys2Proof.Machine

section
variable {s t : State}

/-! ### The canonical form -/

/-- What leaves MEM alone keeps its form. -/
theorem State.MemCanonical.congr (hs : s.MemCanonical) (hmem : t.mem = s.mem) : t.MemCanonical := by
  rwa [State.MemCanonical, hmem]

/-- MEM is marked W in the rows of LD B and of the bulk store alone (R23). -/
theorem mem_mem_writesOf_iff (i : Instr) :
    Part.mem ∈ writesOf i ↔ (∃ x, i = .ldB x) ∨ ∃ x, i = .stBulk x := by
  cases i <;> simp [writesOf]

theorem exec_memCanonical (i : Instr) (hs : s.MemCanonical) (h : exec i s = .next t) : t.MemCanonical := by
  by_cases hw : Part.mem ∈ writesOf i
  · obtain ⟨x, rfl⟩ | ⟨x, rfl⟩ := (mem_mem_writesOf_iff i).mp hw <;> cases h
    · exact State.memCanonical_storeBcd hs _
    · exact (State.memCanonical_storeRegs hs _).congr rfl
  · exact hs.congr (exec_keepsAllBut_writesOf i h .mem hw)

theorem step_memCanonical (hs : s.MemCanonical) (h : step s = .next t) : t.MemCanonical := by
  obtain ⟨-, rfl⟩ | ⟨-, i, -, he⟩ | ⟨-, e, -, rfl⟩ := step_cases h
  · exact hs
  · exact exec_memCanonical (s := s.advance) i hs he
  · exact hs

/-! ### The fetch -/

theorem Word.toNat_ofBytes (hi lo : Byte) : (Word.ofBytes hi lo).toNat = hi.toNat * 256 + lo.toNat := by
  rw [BitVec.toNat_append, ← Nat.shiftLeft_add_eq_or_of_lt lo.isLt, Nat.shiftLeft_eq]

/-- The physical address after `a`, reduced by itself (R29). -/
theorem phys_add_one (a : Word) : phys (a + 1) = (a.toNat + 1) % 4096 := by
  simp only [phys, Config.memSize, BitVec.toNat_add, show (1 : Word).toNat = 1 from rfl]
  omega

/-- The bulk store writes neither PC nor anything else that the fetch reads but MEM (R77). -/
theorem fetchWord_of_stBulk {x : Reg} (h : exec (.stBulk x) s = .next t) :
    t.fetchWord = Word.ofBytes ((s.storeRegs (regsUpTo x)).readByte s.pc)
      ((s.storeRegs (regsUpTo x)).readByte (s.pc + 1)) := by
  cases h
  rw [State.storeRegs_frame]
  rfl

/-- The bulk store's byte is loaded from every address that names its cell (R77, R29). -/
theorem State.readByte_storeRegs {x r : Reg} {a : Word} (hs : s.MemCanonical) (hr : r ≤ x)
    (ha : phys a = phys (s.ea r.val)) : (s.storeRegs (regsUpTo x)).readByte a = s.v[r] := by
  rw [State.readByte, ha]
  exact State.read_storeRegs_mem hs ((mem_regsUpTo x r).mpr hr)

/-! ### The ROM load -/

theorem State.romLoad_eq_error {b : List Byte} (h : 3584 < b.length) : s.romLoad b = .error .romTooLarge :=
  if_pos h

/-- The load is accepted exactly up to ROM_MAX, and then writes the bytes from ROM_BASE on (R40). -/
theorem State.romLoad_eq_ok_iff {b : List Byte} :
    s.romLoad b = .ok t ↔ b.length ≤ 3584 ∧ t = s.writeBytes 0x200 b := by
  by_cases hl : b.length ≤ 3584
  · have h : s.romLoad b = .ok (s.writeBytes 0x200 b) := if_neg (Nat.not_lt.mpr hl)
    simp [h, hl, eq_comm]
  · simp [State.romLoad_eq_error (s := s) (Nat.lt_of_not_le hl), hl]

/-- What every address reads after an accepted load (R40). -/
theorem State.read_romLoad {b : List Byte} (hs : s.MemCanonical) (h : s.romLoad b = .ok t) (c : Nat) :
    Memory.read t.mem c =
      if h : 0x200 ≤ c ∧ c < 0x200 + b.length then b[c - 0x200]'(by omega) else Memory.read s.mem c := by
  obtain ⟨hl, rfl⟩ := State.romLoad_eq_ok_iff.mp h
  have hfit : (0x200 : Word).toNat + b.length ≤ Config.memSize := by
    rw [show (0x200 : Word).toNat = 0x200 from rfl, Config.memSize]
    omega
  exact State.read_writeBytes hs 0x200 b hfit c

theorem State.read_romLoad_inside {b : List Byte} (hs : s.MemCanonical) (h : s.romLoad b = .ok t)
    (j : Fin b.length) : Memory.read t.mem (0x200 + j.val) = b[j] := by
  rw [State.read_romLoad hs h, dif_pos (by omega)]
  simp

theorem State.read_romLoad_outside {b : List Byte} {a : Nat} (hs : s.MemCanonical) (h : s.romLoad b = .ok t)
    (ha : a < 0x200 ∨ 0x200 + b.length ≤ a) : Memory.read t.mem a = Memory.read s.mem a := by
  rw [State.read_romLoad hs h, dif_neg (by omega)]

/-! ### The font -/

theorem State.glyphAddr_toNat (s : State) (x : Reg) :
    (s.glyphAddr x).toNat = Config.fontBase.val + 5 * s.v[x].toNat := by
  have hbase := Config.fontBase.isLt
  have hv := s.v[x].isLt
  rw [State.glyphAddr, BitVec.toNat_ofNat, Config.glyphBytes, State.getV]
  omega

/-- The five bytes from a digit's glyph address are that digit's glyph (R28, R75). -/
theorem State.FontInPlace.read_glyph {x : Reg} {j : Nat} (hf : s.FontInPlace) (hx : s.v[x].toNat ≤ 15) (hj : j < 5) :
    Config.fontData[5 * s.v[x].toNat + j]? = some (Memory.read s.mem (((s.glyphAddr x).toNat + j) % 4096)) := by
  have hbase := Config.fontBase.isLt
  have haddr : ((s.glyphAddr x).toNat + j) % 4096 = Config.fontBase.val + (5 * s.v[x].toNat + j) := by
    rw [State.glyphAddr_toNat]
    omega
  rw [haddr, hf _ (by omega)]

/-- An accepted load leaves the font in place: every FONT_BASE ends the font below ROM_BASE (R27, R40). -/
theorem State.FontInPlace.romLoad {b : List Byte} (hf : s.FontInPlace) (hs : s.MemCanonical)
    (h : s.romLoad b = .ok t) : t.FontInPlace := by
  intro k hk
  have hbase := Config.fontBase.isLt
  rw [State.read_romLoad_outside hs h (by omega), hf k hk]

end

/-! ### The obligations -/

/-- Settles O50: only LD B, the bulk store, the ROM load and reset touch MEM, and each keeps its form. -/
theorem memoryStaysCanonical : Obligations.MemoryStaysCanonical := by
  intro op s t hs h
  cases op with
  | reset => cases h; rfl
  | romLoad bytes =>
    obtain rfl | ⟨a, rfl⟩ := applyOp_romLoad_cases h
    · exact hs
    · exact State.memCanonical_writeBytes hs a bytes
  | step => exact step_memCanonical hs h
  | tick => cases h; exact hs.congr rfl
  | keySet idx b =>
    cases h
    obtain he | ⟨k, he⟩ := s.keySet_cases idx b <;> rw [he]
    · exact hs
    · exact hs.congr rfl
  | dirtyClear => cases h; exact hs.congr rfl

/-- Settles O5: the word is its two bytes, each at its own physical address. -/
theorem fetchIsBigEndian : Obligations.FetchIsBigEndian := by
  intro s
  rw [State.fetchWord, Word.toNat_ofBytes, State.readByte, State.readByte, phys_add_one]
  rfl

/-- Settles O27: LD F changes I alone, and the glyph address lies inside the font. -/
theorem fontAddressFindsTheGlyph : Obligations.FontAddressFindsTheGlyph :=
  fun x s hf hx => ⟨s.setI (s.glyphAddr x), rfl, hf, fun _ hj => hf.read_glyph hx hj⟩

/-- Settles O32: PC and the address after it name the cells of Vq and V(q+1). -/
theorem storedBytesAreFetchedNext : Obligations.StoredBytesAreFetchedNext := by
  intro x q s t hs hq haddr h
  have hnext : (q + 1).val = q.val + 1 := Fin.val_add_one_of_lt (lt_of_lt_of_le hq (Fin.le_last x))
  have hhi : phys s.pc = phys (s.ea q.val) := haddr.symm.trans (s.phys_ea q.val).symm
  have hlo : phys (s.pc + 1) = phys (s.ea (q + 1).val) := by
    rw [phys_add_one, State.phys_ea, hnext]
    omega
  have hle : q + 1 ≤ x := by
    rw [Fin.le_def, hnext]
    exact hq
  rw [fetchWord_of_stBulk h, State.readByte_storeRegs hs hq.le hhi, State.readByte_storeRegs hs hle hlo]

/-- Settles O45: the two outcomes of the load, and what every address reads after an accepted one. -/
theorem romLoadIsExactOrRejected : Obligations.RomLoadIsExactOrRejected := by
  intro s b hs
  constructor
  · intro hl
    have h := State.romLoad_eq_error (s := s) hl
    exact ⟨h, by rw [applyOp, h]⟩
  · intro hl
    have h : s.romLoad b = .ok (s.writeBytes 0x200 b) := State.romLoad_eq_ok_iff.mpr ⟨hl, rfl⟩
    exact ⟨_, h, by rw [applyOp, h], State.read_romLoad_inside hs h, fun _ => State.read_romLoad_outside hs h,
      State.writeBytes_frame s 0x200 b⟩

/-- Settles O51: after reset nothing is listed, so the font reads as the unlisted contents; a load starts above it. -/
theorem fontIsInPlaceAtTheStartOfARun : Obligations.FontIsInPlaceAtTheStartOfARun :=
  ⟨fun _ _ hk => Memory.some_unlisted_font hk, fun _ _ _ hs hf h => hf.romLoad hs h⟩

end Sys2Proof.Machine
end

section
/-! Proofs about the encoding: the decoder read by fields, format by format (R42, R43), the round trips of R46, the words
of R47, and the step that runs the decoded instruction (R45). -/

namespace Sys2Proof

open Sys2Proof.Machine

/-! ### The decoder by fields -/

/-- What the rows after CLS and RET build from a word with these fields: `build` of the first row whose test of fields
holds. On a literal `op`, and a literal `n` or `kk` where the family tests it, this computes. -/
def buildOfFields (op n : Nibble) (kk : Byte) : Option (Word → Instr) :=
  (rowsAfterFixed.find? fun r => r.testFields op n kk).map OpcodeRow.build

/-- The words of the two FIXED rows, which are tested first, and all the others. -/
theorem fixedWord_cases (w : Word) : w = 0x00E0#16 ∨ w = 0x00EE#16 ∨ (w ≠ 0x00E0#16 ∧ w ≠ 0x00EE#16) := by
  tauto

theorem decode_eq_buildOfFields {w : Word} (hcls : w ≠ 0x00E0#16) (hret : w ≠ 0x00EE#16) :
    decode w =
      (buildOfFields (fieldOp w) (fieldN w) (fieldKK w)).elim (.error (.unrecognised w)) fun b => .ok (b w) := by
  rw [decode, selectRow_eq, if_neg hcls, if_neg hret, buildOfFields]
  cases rowsAfterFixed.find? fun r => r.testFields (fieldOp w) (fieldN w) (fieldKK w) <;> rfl

/-- Outside family 0 the words of CLS and RET play no part. -/
theorem decode_of_buildOfFields {w : Word} {b : Word → Instr} (hop : fieldOp w ≠ 0)
    (hb : buildOfFields (fieldOp w) (fieldN w) (fieldKK w) = some b) : decode w = .ok (b w) := by
  rw [decode_eq_buildOfFields (by rintro rfl; exact hop rfl) (by rintro rfl; exact hop rfl), hb]
  rfl

/-! ### Encode, then decode: one lemma per format of R43

The last hypothesis of each says that the row does not depend on the operands: whatever they are, it builds `f` of
the operand fields. -/

theorem decode_formatNNN {op : Nibble} {f : Addr12 → Instr} (nnn : Addr12) (hop : op ≠ 0)
    (hb : ∀ n kk, buildOfFields op n kk = some fun w => f (fieldNNN w)) :
    decode (encNNN op nnn) = .ok (f nnn) := by
  rw [decode_of_buildOfFields (by rwa [fieldOp_encNNN]) (by rw [fieldOp_encNNN, hb]), fieldNNN_encNNN]

theorem decode_formatXKK {op : Nibble} {f : Reg → Byte → Instr} (x : Reg) (kk : Byte) (hop : op ≠ 0)
    (hb : ∀ n kk, buildOfFields op n kk = some fun w => f (fieldX w) (fieldKK w)) :
    decode (encXKK op x kk) = .ok (f x kk) := by
  rw [decode_of_buildOfFields (by rwa [fieldOp_encXKK]) (by rw [fieldOp_encXKK, hb]), fieldX_encXKK, fieldKK_encXKK]

theorem decode_formatX {op : Nibble} {kk : Byte} {f : Reg → Instr} (x : Reg) (hop : op ≠ 0)
    (hb : ∀ n, buildOfFields op n kk = some fun w => f (fieldX w)) :
    decode (encXKK op x kk) = .ok (f x) := by
  rw [decode_of_buildOfFields (by rwa [fieldOp_encXKK]) (by rw [fieldOp_encXKK, fieldKK_encXKK, hb]), fieldX_encXKK]

theorem decode_formatXY {op n : Nibble} {f : Reg → Reg → Instr} (x y : Reg) (hop : op ≠ 0)
    (hb : ∀ kk, buildOfFields op n kk = some fun w => f (fieldX w) (fieldY w)) :
    decode (encXYN op x y n) = .ok (f x y) := by
  rw [decode_of_buildOfFields (by rwa [fieldOp_encXYN]) (by rw [fieldOp_encXYN, fieldN_encXYN, hb]), fieldX_encXYN,
    fieldY_encXYN]

theorem decode_formatXYN {op : Nibble} {f : Reg → Reg → Nibble → Instr} (x y : Reg) (n : Nibble) (hop : op ≠ 0)
    (hb : ∀ n kk, buildOfFields op n kk = some fun w => f (fieldX w) (fieldY w) (fieldN w)) :
    decode (encXYN op x y n) = .ok (f x y n) := by
  rw [decode_of_buildOfFields (by rwa [fieldOp_encXYN]) (by rw [fieldOp_encXYN, hb]), fieldX_encXYN, fieldY_encXYN,
    fieldN_encXYN]

theorem wellFormed_sys_iff (nnn : Addr12) : (Instr.sys nnn).WellFormed ↔ nnn ≠ 0x0E0#12 ∧ nnn ≠ 0x0EE#12 := by
  simp [Instr.WellFormed, Instr.wf, Addr12.isSys]

/-- Only a SYS term can be ill formed, and it is so exactly where its word is that of CLS or RET (R88). -/
theorem wellFormed_of_encode_ne {i : Instr} (hcls : encode i ≠ 0x00E0#16) (hret : encode i ≠ 0x00EE#16) :
    i.WellFormed := by
  cases i with
  | sys nnn => exact (wellFormed_sys_iff nnn).mpr ⟨by rintro rfl; exact hcls rfl, by rintro rfl; exact hret rfl⟩
  | _ => rfl

theorem encode_sys_ne {nnn : Addr12} (h : (Instr.sys nnn).WellFormed) :
    encode (.sys nnn) ≠ 0x00E0#16 ∧ encode (.sys nnn) ≠ 0x00EE#16 := by
  obtain ⟨hcls, hret⟩ := (wellFormed_sys_iff nnn).mp h
  have hfield : fieldNNN (encode (.sys nnn)) = nnn := fieldNNN_encNNN 0x0 nnn
  exact ⟨fun e => hcls (by rw [← hfield, e]; rfl), fun e => hret (by rw [← hfield, e]; rfl)⟩

theorem decode_encode_sys {nnn : Addr12} (h : (Instr.sys nnn).WellFormed) :
    decode (encode (.sys nnn)) = .ok (.sys nnn) := by
  obtain ⟨hcls, hret⟩ := encode_sys_ne h
  rw [decode_eq_buildOfFields hcls hret, encode, fieldOp_encNNN]
  exact congrArg (fun a => Except.ok (Instr.sys a)) (fieldNNN_encNNN 0x0 nnn)

/-! ### Decode, then encode: one lemma per format of R43

A row's pattern holds the fields the instruction fixes, and its build keeps all the others of the word. -/

/-- Every word the row matches is the word of the instruction the row builds from it. -/
def OpcodeRow.Rebuilds (r : OpcodeRow) : Prop :=
  ∀ w : Word, (w &&& r.mask == r.pattern) = true → encode (r.build w) = w

theorem fieldOp_of_mask_F000 {w p : Word} (h : (w &&& 0xF000#16 == p) = true) : fieldOp w = fieldOp p := by
  simp only [and_F000_beq, Bool.and_eq_true, beq_iff_eq] at h
  exact h.1

theorem fields_of_mask_F00F {w p : Word} (h : (w &&& 0xF00F#16 == p) = true) :
    fieldOp w = fieldOp p ∧ fieldN w = fieldN p := by
  simp only [and_F00F_beq, Bool.and_eq_true, beq_iff_eq] at h
  exact h.1

theorem fields_of_mask_F0FF {w p : Word} (h : (w &&& 0xF0FF#16 == p) = true) :
    fieldOp w = fieldOp p ∧ fieldKK w = fieldKK p := by
  simp only [and_F0FF_beq, Bool.and_eq_true, beq_iff_eq] at h
  exact h.1

section
variable {p : Word}

theorem rebuilds_formatFixed {i : Instr} (hi : encode i = p) : OpcodeRow.Rebuilds ⟨0xFFFF, p, fun _ => i⟩ := by
  intro w hw
  have hp : w &&& 0xFFFF#16 = p := beq_iff_eq.mp hw
  rw [hi, ← hp, and_FFFF]

theorem rebuilds_formatNNN {f : Addr12 → Instr} (hf : ∀ nnn, encode (f nnn) = encNNN (fieldOp p) nnn) :
    OpcodeRow.Rebuilds ⟨0xF000, p, fun w => f (fieldNNN w)⟩ := by
  intro w hw
  rw [hf, ← fieldOp_of_mask_F000 hw, encNNN_fields]

theorem rebuilds_formatXKK {f : Reg → Byte → Instr} (hf : ∀ x kk, encode (f x kk) = encXKK (fieldOp p) x kk) :
    OpcodeRow.Rebuilds ⟨0xF000, p, fun w => f (fieldX w) (fieldKK w)⟩ := by
  intro w hw
  rw [hf, ← fieldOp_of_mask_F000 hw, encXKK_fields]

theorem rebuilds_formatXYN {f : Reg → Reg → Nibble → Instr}
    (hf : ∀ x y n, encode (f x y n) = encXYN (fieldOp p) x y n) :
    OpcodeRow.Rebuilds ⟨0xF000, p, fun w => f (fieldX w) (fieldY w) (fieldN w)⟩ := by
  intro w hw
  rw [hf, ← fieldOp_of_mask_F000 hw, encXYN_fields]

theorem rebuilds_formatXY {f : Reg → Reg → Instr}
    (hf : ∀ x y, encode (f x y) = encXYN (fieldOp p) x y (fieldN p)) :
    OpcodeRow.Rebuilds ⟨0xF00F, p, fun w => f (fieldX w) (fieldY w)⟩ := by
  intro w hw
  obtain ⟨hop, hn⟩ := fields_of_mask_F00F hw
  rw [hf, ← hop, ← hn, encXYN_fields]

theorem rebuilds_formatX {f : Reg → Instr} (hf : ∀ x, encode (f x) = encXKK (fieldOp p) x (fieldKK p)) :
    OpcodeRow.Rebuilds ⟨0xF0FF, p, fun w => f (fieldX w)⟩ := by
  intro w hw
  obtain ⟨hop, hkk⟩ := fields_of_mask_F0FF hw
  rw [hf, ← hop, ← hkk, encXKK_fields]

end

theorem rebuilds_opcodeRows0 : ∀ r ∈ opcodeRows0, r.Rebuilds := by
  simp only [opcodeRows0, List.forall_mem_cons]
  exact ⟨rebuilds_formatFixed rfl, rebuilds_formatFixed rfl, rebuilds_formatNNN fun _ => rfl,
    rebuilds_formatNNN fun _ => rfl, rebuilds_formatNNN fun _ => rfl, rebuilds_formatXKK fun _ _ => rfl,
    rebuilds_formatXKK fun _ _ => rfl, rebuilds_formatXY fun _ _ => rfl, List.forall_mem_nil _⟩

theorem rebuilds_opcodeRows1 : ∀ r ∈ opcodeRows1, r.Rebuilds := by
  simp only [opcodeRows1, List.forall_mem_cons]
  refine ⟨rebuilds_formatXKK fun _ _ => rfl, rebuilds_formatXKK fun _ _ => rfl, ?_, ?_, ?_, ?_, ?_, ?_, ?_, ?_, ?_,
    List.forall_mem_nil _⟩ <;>
    exact rebuilds_formatXY fun _ _ => rfl

theorem rebuilds_opcodeRows2 : ∀ r ∈ opcodeRows2, r.Rebuilds := by
  simp only [opcodeRows2, List.forall_mem_cons]
  exact ⟨rebuilds_formatXY fun _ _ => rfl, rebuilds_formatNNN fun _ => rfl, rebuilds_formatNNN fun _ => rfl,
    rebuilds_formatXKK fun _ _ => rfl, rebuilds_formatXYN fun _ _ _ => rfl, rebuilds_formatX fun _ => rfl,
    rebuilds_formatX fun _ => rfl, List.forall_mem_nil _⟩

theorem rebuilds_opcodeRows3 : ∀ r ∈ opcodeRows3, r.Rebuilds := by
  simp only [opcodeRows3, List.forall_mem_cons]
  refine ⟨?_, ?_, ?_, ?_, ?_, ?_, ?_, ?_, ?_, List.forall_mem_nil _⟩ <;>
    exact rebuilds_formatX fun _ => rfl

theorem rebuilds_opcodeTable : ∀ r ∈ opcodeTable, r.Rebuilds := by
  simp only [opcodeTable, List.forall_mem_append]
  exact ⟨⟨⟨rebuilds_opcodeRows0, rebuilds_opcodeRows1⟩, rebuilds_opcodeRows2⟩, rebuilds_opcodeRows3⟩

theorem decode_eq_ok_iff (w : Word) (i : Instr) : decode w = .ok i ↔ ∃ r, selectRow w = some r ∧ r.build w = i := by
  rw [decode]
  cases selectRow w <;> simp

theorem encode_of_decode {w : Word} {i : Instr} (h : decode w = .ok i) : encode i = w := by
  obtain ⟨r, hr, rfl⟩ := (decode_eq_ok_iff w i).mp h
  rw [selectRow] at hr
  have htest := List.find?_some hr
  exact rebuilds_opcodeTable r (List.mem_of_find?_eq_some hr) w htest

/-! ### The words of R47 -/

theorem nibble_cases (b : Nibble) :
    b = 0x0 ∨ b = 0x1 ∨ b = 0x2 ∨ b = 0x3 ∨ b = 0x4 ∨ b = 0x5 ∨ b = 0x6 ∨ b = 0x7 ∨
    b = 0x8 ∨ b = 0x9 ∨ b = 0xA ∨ b = 0xB ∨ b = 0xC ∨ b = 0xD ∨ b = 0xE ∨ b = 0xF := by
  revert b
  decide

/-- R47's table by fields: what the rows of R46 leave over in each family. -/
theorem buildOfFields_eq_none_iff (op n : Nibble) (kk : Byte) :
    buildOfFields op n kk = none ↔
      (op = 0x5 ∧ n ≠ 0) ∨ (op = 0x8 ∧ n ∈ [0x8, 0x9, 0xA, 0xB, 0xC, 0xD, 0xF]) ∨ (op = 0x9 ∧ n ≠ 0) ∨
      (op = 0xE ∧ kk ∉ [0x9E, 0xA1]) ∨
      (op = 0xF ∧ kk ∉ [0x07, 0x0A, 0x15, 0x18, 0x1E, 0x29, 0x33, 0x55, 0x65]) := by
  have hn : n ∈ [0x8, 0x9, 0xA, 0xB, 0xC, 0xD, 0xF] ↔ n ∉ [0x0, 0x1, 0x2, 0x3, 0x4, 0x5, 0x6, 0x7, 0xE] := by
    revert n
    decide
  rw [hn, buildOfFields, Option.map_eq_none_iff, List.find?_eq_none]
  simp only [rowsAfterFixed, opcodeTable, opcodeRows0, opcodeRows1, opcodeRows2, opcodeRows3, List.cons_append,
    List.nil_append, List.drop_succ_cons, List.drop_zero, List.forall_mem_cons, OpcodeRow.testFields]
  obtain rfl | rfl | rfl | rfl | rfl | rfl | rfl | rfl | rfl | rfl | rfl | rfl | rfl | rfl | rfl | rfl :=
    nibble_cases op <;>
    simp [fieldOp, fieldN, fieldKK]

theorem toNat_fieldOp (w : Word) : (fieldOp w).toNat = w.toNat / 4096 := by
  rw [fieldOp, BitVec.extractLsb'_toNat, Nat.shiftRight_eq_div_pow]
  omega

theorem toNat_fieldN (w : Word) : (fieldN w).toNat = w.toNat % 16 := by
  rw [fieldN, BitVec.extractLsb'_toNat]
  rfl

theorem toNat_fieldKK (w : Word) : (fieldKK w).toNat = w.toNat % 256 := by
  rw [fieldKK, BitVec.extractLsb'_toNat]
  rfl

theorem unrecognisedWord_iff_buildOfFields (w : Word) :
    UnrecognisedWord w ↔ buildOfFields (fieldOp w) (fieldN w) (fieldKK w) = none := by
  simp [buildOfFields_eq_none_iff, UnrecognisedWord, ← BitVec.toNat_inj, toNat_fieldOp, toNat_fieldN, toNat_fieldKK]

/-! ### The obligations -/

/-- Settles O1: an instruction's word decodes by its format of R43; CLS, RET and SYS share family 0. -/
theorem decodeInvertsEncode : Obligations.DecodeInvertsEncode := by
  intro i hwf
  cases i with
  | cls | ret => rfl
  | sys nnn => exact decode_encode_sys hwf
  | jp nnn | call nnn | ldI nnn | jpV0 nnn => exact decode_formatNNN nnn (by decide) fun _ _ => rfl
  | seImm x kk | sneImm x kk | ldImm x kk | addImm x kk | rnd x kk =>
    exact decode_formatXKK x kk (by decide) fun _ _ => rfl
  | seReg x y | ldReg x y | orReg x y | andReg x y | xorReg x y | addReg x y | subReg x y | shr x y | subnReg x y
  | shl x y | sneReg x y => exact decode_formatXY x y (by decide) fun _ => rfl
  | drw x y n => exact decode_formatXYN x y n (by decide) fun _ _ => rfl
  | skp x | sknp x | ldFromDt x | ldKey x | ldDt x | ldSt x | addI x | ldF x | ldB x | stBulk x | ldBulk x =>
    exact decode_formatX x (by decide) fun _ => rfl

/-- Settles O2: every row rebuilds the words it matches, and only the words of CLS and RET could come from an ill-formed
term. -/
theorem encodeInvertsDecode : Obligations.EncodeInvertsDecode := by
  intro w i h
  refine ⟨?_, encode_of_decode h⟩
  obtain rfl | rfl | ⟨hcls, hret⟩ := fixedWord_cases w
  · cases h
    rfl
  · cases h
    rfl
  · rw [← encode_of_decode h] at hcls hret
    exact wellFormed_of_encode_ne hcls hret

/-- Settles O3: R47's table is what the rows leave over, and the words of CLS and RET are not in it. -/
theorem decoderRefusesExactlyTheListedWords : Obligations.DecoderRefusesExactlyTheListedWords := by
  intro w
  rw [unrecognisedWord_iff_buildOfFields]
  obtain rfl | rfl | ⟨hcls, hret⟩ := fixedWord_cases w
  · exact ⟨fun h => (by cases h), fun _ => ⟨.cls, rfl⟩⟩
  · exact ⟨fun h => (by cases h), fun _ => ⟨.ret, rfl⟩⟩
  · rw [decode_eq_buildOfFields hcls hret]
    cases buildOfFields (fieldOp w) (fieldN w) (fieldKK w) with
    | none => exact ⟨fun _ => rfl, fun h => absurd rfl h⟩
    | some b => exact ⟨fun h => (by cases h), fun _ => ⟨b w, rfl⟩⟩

/-- Settles O4: the words are closed, so the decoder computes on each. -/
theorem wordsOfEachFamilyDecode : Obligations.WordsOfEachFamilyDecode := by
  unfold Obligations.WordsOfEachFamilyDecode
  decide

/-- Settles O6: the two ways a step can go, by FAULT. -/
theorem stepRunsTheDecodedInstruction : Obligations.StepRunsTheDecodedInstruction :=
  fun _ => ⟨step_of_fault, fun _ => step_of_decode⟩

end Sys2Proof
end

section
/-! Proofs about control flow: the jumps (R51, R58), CALL and RET (R52, R53), and the compare-and-skips (R54 to R57). -/

namespace Sys2Proof.Machine

/-! ### The addresses that jumps load -/

theorem toNat_addrOperand (nnn : Addr12) : (addrOperand nnn).toNat = nnn.toNat :=
  BitVec.toNat_setWidth_of_le (by decide)

theorem State.toNat_vWord (s : State) (x : Reg) : (s.vWord x).toNat = s.v[x].toNat :=
  BitVec.toNat_setWidth_of_le (by decide)

/-- The target of JP V0 is at most 0x10FE, so its sum never wraps (R58). -/
theorem State.toNat_addrOperand_add_vWord (s : State) (nnn : Addr12) (x : Reg) :
    (addrOperand nnn + s.vWord x).toNat = nnn.toNat + s.v[x].toNat := by
  have hn := nnn.isLt
  have hv := s.v[x].isLt
  rw [BitVec.toNat_add, toNat_addrOperand, State.toNat_vWord]
  omega

/-! ### RET by the stack it finds -/

theorem exec_ret_of_concat {s : State} {st : List Word} {a : Word} (h : s.stack = st ++ [a]) :
    exec .ret s = .next { s with stack := st, pc := a } := by
  rw [exec, execRet, State.pop?_concat h]
  rfl

theorem exec_ret_of_empty {s : State} (h : s.stack = []) :
    exec .ret s = .next { s with fault := some .stackUnderflow } := by
  rw [exec, execRet, State.pop?_empty h]
  rfl

/-! ### The skip -/

/-- A skip whose test decides `P` moves PC exactly when `P` holds, and nothing else. -/
theorem State.skipIf_eq_of_iff {c : Bool} {P : Prop} [Decidable P] (s : State) (h : c = true ↔ P) :
    s.skipIf c = { s with pc := if P then s.pc + 2 else s.pc } := by
  by_cases hP : P
  · rw [h.mpr hP, if_pos hP]
    rfl
  · rw [Bool.eq_false_iff.mpr fun hc => hP (h.mp hc), if_neg hP]
    rfl

/-! ### The obligations -/

/-- Settles O11: each jump sets PC alone; neither target is cut to fewer than its own bits. -/
theorem jumpsLoadPc : Obligations.JumpsLoadPc :=
  fun nnn s => ⟨⟨s.setPc (addrOperand nnn), rfl, toNat_addrOperand nnn, rfl⟩,
    ⟨s.setPc (addrOperand nnn + s.vWord 0), rfl, s.toNat_addrOperand_add_vWord nnn 0, rfl⟩⟩

/-- Settles O14: CALL leaves the return address as the newest entry, and RET pops the newest entry. -/
theorem retUndoesCall : Obligations.RetUndoesCall := by
  intro nnn s t u hcall hu
  cases hcall
  have hstack : u.stack = s.stack ++ [s.pc] := hu
  exact exec_ret_of_concat hstack

/-- Settles O15: each of the four is a skip on a test that decides its condition. -/
theorem compareSkipsMovePcByTwo : Obligations.CompareSkipsMovePcByTwo :=
  fun _ _ _ s => ⟨congrArg _ (s.skipIf_eq_of_iff beq_iff_eq), congrArg _ (s.skipIf_eq_of_iff bne_iff_ne),
    congrArg _ (s.skipIf_eq_of_iff beq_iff_eq), congrArg _ (s.skipIf_eq_of_iff bne_iff_ne)⟩

/-- Settles O12: the push and the jump are the whole of CALL, at any depth. -/
theorem callPushesAdvancedPcAndJumps : Obligations.CallPushesAdvancedPcAndJumps :=
  fun nnn s => ⟨(s.push s.pc).setPc (addrOperand nnn), rfl, rfl, toNat_addrOperand nnn, rfl⟩

/-- Settles O13, by the stack that RET finds. -/
theorem retPopsOrTakesStackUnderflow : Obligations.RetPopsOrTakesStackUnderflow :=
  fun _ => ⟨fun _ _ => exec_ret_of_concat, exec_ret_of_empty⟩

end Sys2Proof.Machine
end

section
/-! Proofs about the register and arithmetic instructions (R59 to R69): each is one register write, or a result write
followed by the flag write (R10), and the two frames are proved once. -/

namespace Sys2Proof.Machine

section
variable {i : Instr} {x : Reg} {result flag : State → Byte}

/-! ### The two shapes of a register instruction -/

/-- An instruction that is one register write writes its destination alone (R9). -/
theorem writesVx_of_exec (h : ∀ s, exec i s = .next (s.setV x (result s))) : WritesVx i x result :=
  fun s => ⟨s.setV x (result s), h s, (s.getV_setV x x _).trans (if_pos rfl),
    fun r hr => (s.getV_setV x r _).trans (if_neg hr), rfl⟩

/-- An instruction that is a result write followed by the flag write touches its destination and VF alone; the flag
stands last, so the result is read back where the destination is not VF (R10). -/
theorem writesVxThenVF_of_exec (h : ∀ s, exec i s = .next (s.setVWithFlag x (result s) (flag s))) :
    WritesVxThenVF i x result flag := by
  intro s
  have hv := fun r => s.getV_setVWithFlag x r (result s) (flag s)
  refine ⟨s.setVWithFlag x (result s) (flag s), h s, ?_, fun hx => ?_, fun r hrx hrf => ?_, rfl⟩
  · exact (hv 15).trans (if_pos rfl)
  · exact (hv x).trans ((if_neg hx).trans (if_pos rfl))
  · exact (hv r).trans ((if_neg hrf).trans (if_neg hrx))

end

/-! ### The flags as conditions on the operands -/

theorem carryFlag_eq (a b : Byte) : carryFlag a b = if a.toNat + b.toNat > 255 then 1 else 0 := flagByte_decide _

theorem noBorrowFlag_eq (a b : Byte) : noBorrowFlag a b = if a.toNat ≥ b.toNat then 1 else 0 := flagByte_decide _

/-! ### The obligations -/

/-- Settles O18: both loads are one register write. -/
theorem loadsWriteVxOnly : Obligations.LoadsWriteVxOnly :=
  fun _ _ _ => ⟨writesVx_of_exec fun _ => rfl, writesVx_of_exec fun _ => rfl⟩

/-- Settles O19: one register write, of the wrapped sum; no flag is written. -/
theorem addImmediateWrapsWithoutFlag : Obligations.AddImmediateWrapsWithoutFlag :=
  fun _ _ => writesVx_of_exec fun s => by rw [exec, execAddImm, addResult_eq, State.getV]

/-- Settles O20: the flag written after each of the three results is 0. -/
theorem logicOpsZeroVF : Obligations.LogicOpsZeroVF :=
  fun _ _ => ⟨writesVxThenVF_of_exec fun _ => rfl, writesVxThenVF_of_exec fun _ => rfl,
    writesVxThenVF_of_exec fun _ => rfl⟩

/-- Settles O21: the sum narrowed to a byte wraps, and the flag is the carry of the exact sum. -/
theorem addRegisterSetsCarry : Obligations.AddRegisterSetsCarry :=
  fun _ _ => writesVxThenVF_of_exec fun s => by rw [exec, execAddReg, addResult_eq, carryFlag_eq]; rfl

/-- Settles O22: SUBN is SUB with the operands exchanged, in the result and in the flag. -/
theorem subtractionsSetNoBorrow : Obligations.SubtractionsSetNoBorrow :=
  fun _ _ => ⟨writesVxThenVF_of_exec fun s => by rw [exec, execSubReg, subResult_eq, noBorrowFlag_eq]; rfl,
    writesVxThenVF_of_exec fun s => by rw [exec, execSubnReg, subResult_eq, noBorrowFlag_eq]; rfl⟩

/-- Settles O23: the result is Vy shifted, the flag the bit of the old Vx. -/
theorem shiftsTakeVyAndFlagFromOldVx : Obligations.ShiftsTakeVyAndFlagFromOldVx :=
  fun _ _ => ⟨writesVxThenVF_of_exec fun s => by rw [exec, execShr, shrResult_eq]; rfl,
    writesVxThenVF_of_exec fun s => by rw [exec, execShl, shlResult_eq]; rfl⟩

end Sys2Proof.Machine
end

section
/-! The proof about RND (R71, R72). -/

namespace Sys2Proof.Machine

theorem State.rndByte_ne_zero (s : State) : s.rndByte ≠ 0 := by
  intro h
  have hpos := s.rndByte_pos
  rw [h] at hpos
  exact absurd hpos (by decide)

/-- Settles O24: RND counts a draw and writes one register with the drawn byte masked; `r` is that byte. -/
theorem rndMasksANonzeroByte : Obligations.RndMasksANonzeroByte := by
  intro x kk s
  have hx : (s.drawn.setV x (s.rndByte &&& kk)).v[x] = s.rndByte &&& kk :=
    (s.drawn.getV_setV x x _).trans (if_pos rfl)
  refine ⟨s.drawn.setV x (s.rndByte &&& kk), s.rndByte, rfl, s.rndByte_pos, hx, fun hkk => ?_, fun hkk => ?_,
    fun q hq => (s.drawn.getV_setV x q _).trans (if_neg hq), rfl⟩
  · have hmask : s.rndByte &&& 0xFF = s.rndByte := BitVec.and_allOnes
    rw [hx, hkk, hmask]
    exact s.rndByte_ne_zero
  · rw [hx, hkk]
    exact BitVec.and_zero

end Sys2Proof.Machine
end

section
/-! Proofs about the index register and the memory instructions (R73 to R78): the addresses they compute, the digits of
LD B, the bulk store, the bulk load, and the load from where a store has been. -/

namespace Sys2Proof.Machine

section
variable {s : State} {x r : Reg}

/-! ### The addresses that I is left with -/

theorem State.toNat_i_add_vWord (s : State) (x : Reg) :
    (s.i + s.vWord x).toNat = (s.i.toNat + s.v[x].toNat) % 65536 := by
  rw [BitVec.toNat_add, State.toNat_vWord]

theorem State.toNat_iAfterBulk (s : State) (x : Reg) :
    (s.iAfterBulk x).toNat = (s.i.toNat + x.val + 1) % 65536 := by
  rw [State.iAfterBulk, BitVec.toNat_add, BitVec.toNat_ofNat, Nat.add_mod_mod, Nat.add_assoc]

/-! ### The digits of LD B

The three cells are distinct because three is less than the size of memory, so no store hides an earlier one (R76). -/

/-- `State.read_storeBcd` with the three addresses written out from I (R29). -/
theorem State.read_storeBcd_wrapped (hs : s.MemCanonical) (v : Byte) (a : Nat) :
    Memory.read (s.storeBcd v).mem a =
      if a = (s.i.toNat + 2) % 4096 then bcdUnits v else if a = (s.i.toNat + 1) % 4096 then bcdTens v
      else if a = s.i.toNat % 4096 then bcdHundreds v else Memory.read s.mem a := by
  simp only [State.read_storeBcd hs, State.phys_ea, Nat.add_zero]

theorem State.read_storeBcd_hundreds (hs : s.MemCanonical) (v : Byte) :
    Memory.read (s.storeBcd v).mem (s.i.toNat % 4096) = bcdHundreds v := by
  rw [State.read_storeBcd_wrapped hs, if_neg (by omega), if_neg (by omega), if_pos rfl]

theorem State.read_storeBcd_tens (hs : s.MemCanonical) (v : Byte) :
    Memory.read (s.storeBcd v).mem ((s.i.toNat + 1) % 4096) = bcdTens v := by
  rw [State.read_storeBcd_wrapped hs, if_neg (by omega), if_pos rfl]

theorem State.read_storeBcd_units (hs : s.MemCanonical) (v : Byte) :
    Memory.read (s.storeBcd v).mem ((s.i.toNat + 2) % 4096) = bcdUnits v := by
  rw [State.read_storeBcd_wrapped hs, if_pos rfl]

theorem State.read_storeBcd_other (hs : s.MemCanonical) (v : Byte) {a : Nat} (h0 : a ≠ s.i.toNat % 4096)
    (h1 : a ≠ (s.i.toNat + 1) % 4096) (h2 : a ≠ (s.i.toNat + 2) % 4096) :
    Memory.read (s.storeBcd v).mem a = Memory.read s.mem a := by
  rw [State.read_storeBcd_wrapped hs, if_neg h2, if_neg h1, if_neg h0]

/-! ### The bulk store and the bulk load, by the register's place against `x` -/

theorem State.read_bulkStore (hs : s.MemCanonical) (hr : r ≤ x) :
    Memory.read (s.storeRegs (regsUpTo x)).mem ((s.i.toNat + r.val) % 4096) = s.v[r] := by
  rw [← State.phys_ea]
  exact State.read_storeRegs_mem hs ((mem_regsUpTo x r).mpr hr)

theorem State.read_bulkStore_other {a : Nat} (hs : s.MemCanonical)
    (ha : ∀ r : Reg, r ≤ x → a ≠ (s.i.toNat + r.val) % 4096) :
    Memory.read (s.storeRegs (regsUpTo x)).mem a = Memory.read s.mem a := by
  refine State.read_storeRegs_other hs fun r hr => ?_
  rw [State.phys_ea]
  exact ha r ((mem_regsUpTo x r).mp hr)

theorem State.v_bulkLoad_of_le (s : State) (hr : r ≤ x) :
    (s.loadRegs (regsUpTo x)).v[r] = Memory.read s.mem ((s.i.toNat + r.val) % 4096) := by
  rw [← State.phys_ea]
  exact (s.getV_loadRegs _ r).trans (if_pos ((mem_regsUpTo x r).mpr hr))

theorem State.v_bulkLoad_of_gt (s : State) (hr : x < r) : (s.loadRegs (regsUpTo x)).v[r] = s.v[r] :=
  (s.getV_loadRegs _ r).trans (if_neg fun hmem => hr.not_ge ((mem_regsUpTo x r).mp hmem))

/-- The bulk store writes I and MEM alone (R77). -/
theorem exec_stBulk_eq (x : Reg) (s : State) :
    exec (.stBulk x) s = .next { s with i := s.iAfterBulk x, mem := (s.storeRegs (regsUpTo x)).mem } :=
  congrArg (fun t => Host.Outcome.next (State.setI t (s.iAfterBulk x))) (s.storeRegs_frame (regsUpTo x))

/-- The bulk load writes V and I alone (R78). -/
theorem exec_ldBulk_eq (x : Reg) (s : State) :
    exec (.ldBulk x) s = .next { s with v := (s.loadRegs (regsUpTo x)).v, i := s.iAfterBulk x } :=
  congrArg (fun t => Host.Outcome.next (State.setI t (s.iAfterBulk x))) (s.loadRegs_frame (regsUpTo x))

end

/-! ### The obligations -/

/-- Settles O26: LD F sets I alone, and the largest glyph address fits I, so nothing is cut off. -/
theorem fontAddressIsBasePlusFiveVx : Obligations.FontAddressIsBasePlusFiveVx :=
  fun x s => ⟨s.setI (s.glyphAddr x), rfl, s.toNat_glyphAddr x, rfl⟩

/-- Settles O28: three stores to three different cells, and no other. -/
theorem bcdStoresThreeDigits : Obligations.BcdStoresThreeDigits :=
  fun x s hs => ⟨s.storeBcd (s.getV x), rfl, State.read_storeBcd_hundreds hs _, State.read_storeBcd_tens hs _,
    State.read_storeBcd_units hs _, fun _ => State.read_storeBcd_other hs _, s.storeBcd_frame _⟩

/-- Settles O29: each register up to Vx has a cell of its own, and every other cell is left. -/
theorem bulkStoreWritesV0ToVx : Obligations.BulkStoreWritesV0ToVx :=
  fun x s hs => ⟨_, exec_stBulk_eq x s, fun _ => State.read_bulkStore hs, fun _ => State.read_bulkStore_other hs,
    s.toNat_iAfterBulk x, rfl⟩

/-- Settles O30: each register up to Vx takes its cell's byte, and the registers above Vx are left. -/
theorem bulkLoadReadsV0ToVx : Obligations.BulkLoadReadsV0ToVx :=
  fun x s => ⟨_, exec_ldBulk_eq x s, fun _ => s.v_bulkLoad_of_le, fun _ => s.v_bulkLoad_of_gt,
    s.toNat_iAfterBulk x, rfl⟩

/-- Settles O31: from the same I the load reads the very cells that the store wrote, whatever V holds in between. -/
theorem bulkLoadUndoesBulkStore : Obligations.BulkLoadUndoesBulkStore := by
  intro x s t v hs hstore
  rw [exec_stBulk_eq] at hstore
  cases hstore
  refine ⟨_, exec_ldBulk_eq x _, fun r hr => ?_, rfl, rfl⟩
  exact (State.v_bulkLoad_of_le _ hr).trans (State.read_bulkStore hs hr)

/-- Settles O25: each of the two sets I alone; only the sum can pass 16 bits, and it wraps. -/
theorem indexLoadAndAdd : Obligations.IndexLoadAndAdd :=
  ⟨fun nnn s => ⟨s.setI (addrOperand nnn), rfl, toNat_addrOperand nnn, rfl⟩,
    fun x s => ⟨s.setI (s.i + s.vWord x), rfl, s.toNat_i_add_vWord x, rfl⟩⟩

end Sys2Proof.Machine
end

section
/-! Proofs about the key-input instructions (R79 to R81): the key a register names, the four cases of the key-wait as
equations, and the step of a key-wait that is blocked. -/

namespace Sys2Proof.Machine

section
variable {s : State} {x : Reg} {k : Key}

/-! ### The key a register names -/

/-- The low four bits of Vx are Vx modulo 16 (decision D8). -/
theorem State.keyNamed_eq_of_mod (h : s.v[x].toNat % 16 = k.val) : s.keyNamed x = k := by
  refine Fin.ext (Eq.trans ?_ h)
  simp [State.keyNamed, State.getV, Reg.ofNibble, BitVec.extractLsb'_toNat]

theorem toNat_keyByte (k : Key) : (keyByte k).toNat = k.val :=
  Nat.mod_eq_of_lt (k.isLt.trans (by decide))

/-! ### The key-wait, case by case (R81) -/

theorem exec_ldKey_of_wait_none (hw : s.wait = none) : exec (.ldKey x) s = .next s.awaitPress := by
  rw [exec, execLdKey, hw]

theorem exec_ldKey_of_wait_some (hw : s.wait = some k) : exec (.ldKey x) s = .next (s.awaitRelease x k) := by
  rw [exec, execLdKey, hw]

theorem exec_ldKey_of_no_key_down (hw : s.wait = none) (hup : ∀ j, s.keyDown j = false) :
    exec (.ldKey x) s = .next s.rewind := by
  rw [exec_ldKey_of_wait_none hw, State.awaitPress, State.lowestKeyDown_eq_none hup]

theorem exec_ldKey_of_lowest_down (hw : s.wait = none) (hk : s.keyDown k = true)
    (hlow : ∀ j, j < k → s.keyDown j = false) : exec (.ldKey x) s = .next (s.setWait (some k)).rewind := by
  rw [exec_ldKey_of_wait_none hw, State.awaitPress, State.lowestKeyDown_eq_some hk hlow]

theorem exec_ldKey_of_latched_down (hw : s.wait = some k) (hk : s.keyDown k = true) :
    exec (.ldKey x) s = .next s.rewind := by
  rw [exec_ldKey_of_wait_some hw, State.awaitRelease, if_pos hk]

theorem exec_ldKey_of_latched_up (hw : s.wait = some k) (hk : s.keyDown k = false) :
    exec (.ldKey x) s = .next ((s.setV x (keyByte k)).setWait none) := by
  rw [exec_ldKey_of_wait_some hw, State.awaitRelease, if_neg (Bool.eq_false_iff.mp hk)]

end

/-! ### The obligations -/

/-- Settles O33: each of the two is a skip on a test of the key that Vx names. -/
theorem keySkipsTestTheNamedKey : Obligations.KeySkipsTestTheNamedKey := by
  intro x k s hk
  have hdown : s.keyDown (s.keyNamed x) = s.keys[k] := by rw [State.keyNamed_eq_of_mod hk, State.keyDown]
  constructor
  · exact congrArg _ (s.skipIf_eq_of_iff (by rw [hdown]))
  · have hup : (!s.keyDown (s.keyNamed x)) = true ↔ ¬ s.keys[k] = true := by simp [hdown]
    rw [exec, execSknp, s.skipIf_eq_of_iff hup, ite_not]

/-- Settles O34, by the four cases of the key-wait; the key number fits the byte it is delivered in. -/
theorem keyWaitPressThenRelease : Obligations.KeyWaitPressThenRelease := by
  intro x s
  refine ⟨exec_ldKey_of_no_key_down, fun _ => exec_ldKey_of_lowest_down, fun _ => exec_ldKey_of_latched_down,
    fun k hw hk => ⟨_, exec_ldKey_of_latched_up hw hk, ?_, fun r hr => ?_, rfl⟩⟩
  · have hx : ((s.setV x (keyByte k)).setWait none).v[x] = keyByte k := (s.getV_setV x x _).trans (if_pos rfl)
    rw [hx, toNat_keyByte]
  · exact (s.getV_setV x r _).trans (if_neg hr)

/-- Settles O35: a blocked key-wait takes back the advance of its fetch and does nothing else. -/
theorem blockedKeyWaitStepsChangeNothing : Obligations.BlockedKeyWaitStepsChangeNothing := by
  intro x s hf hd hblocked
  have hexec : exec (.ldKey x) s.advance = .next s.advance.rewind := by
    obtain ⟨hw, hup⟩ | ⟨k, hw, hk⟩ := hblocked
    · exact exec_ldKey_of_no_key_down (s := s.advance) hw hup
    · exact exec_ldKey_of_latched_down (s := s.advance) hw hk
  rw [step_of_decode hf hd, hexec, State.rewind_advance]

end Sys2Proof.Machine
end

section
/-! Proofs about the timer instructions (R82 to R84): the two timer-set instructions are one, and it writes DT. -/

namespace Sys2Proof.Machine

section
variable (x : Reg) (s : State)

/-- R83, the record's field written out. -/
theorem exec_ldDt_eq : exec (.ldDt x) s = .next { s with dt := s.v[x] } := rfl

/-- FX18_TARGET is DT on this hardware (R84, decision D6), so LD ST does what LD DT does. -/
theorem exec_ldSt_eq_exec_ldDt : exec (.ldSt x) s = exec (.ldDt x) s := by
  have htarget : s.setTimer Config.fx18Target (s.getV x) = s.setDt (s.getV x) := by
    rw [Config.fx18Target, State.setTimer]
  exact congrArg Host.Outcome.next htarget

end

/-- Settles O37: LD Vx, DT writes one register, and LD ST does what LD DT does. -/
theorem timerInstructionsMoveDT : Obligations.TimerInstructionsMoveDT :=
  fun x s => ⟨writesVx_of_exec fun _ => rfl, exec_ldDt_eq x s,
    (exec_ldSt_eq_exec_ldDt x s).trans (exec_ldDt_eq x s)⟩

end Sys2Proof.Machine
end

section
/-! Proofs about the display instructions (R85 to R87): what a pixel of the screen and the flag hold after one draw and
after the same draw again. -/

namespace Sys2Proof.Machine

section
variable (s : State) (x y : Reg) (n : Nibble)

/-! ### One draw -/

/-- A draw presents the blit and then writes the flag (R86). -/
theorem exec_drw_eq :
    exec (.drw x y n) s = .next ((s.present (s.blit x y n).1).setV regF (flagByte (s.blit x y n).2)) := rfl

theorem State.getElem_blit (cx : Fin 64) (cy : Fin 32) :
    (s.blit x y n).1[cx][cy] = (s.fb[cx][cy] ^^ s.spriteBit x y n cx.val cy.val) := by
  have hpixel := s.pixel_blit x y n cx.val cy.val cx.isLt cy.isLt
  rwa [Framebuffer.pixel_of_lt _ cx.isLt cy.isLt, Framebuffer.pixel_of_lt _ cx.isLt cy.isLt] at hpixel

/-- No collision is reported exactly when every lit pixel meets a clear sprite bit (R86). -/
theorem State.blit_no_hit :
    (s.blit x y n).2 = false ↔
      ∀ (cx : Fin 64) (cy : Fin 32), s.fb[cx][cy] = true → s.spriteBit x y n cx.val cy.val = false := by
  rw [← Bool.not_eq_true, s.blit_hit]
  simp only [not_exists, not_and, Bool.not_eq_true]

theorem State.v_setV_flagByte {hit c : Bool} (h : hit = c) : (s.setV regF (flagByte hit)).v[15] = flagByte c := by
  subst h
  exact (s.getV_setV regF 15 _).trans (if_pos rfl)

/-! ### The same draw again -/

/-- The sprite is read from V, I and MEM alone, so a screen write leaves it as it is. -/
theorem State.spriteBit_present (fb : Framebuffer) : (s.present fb).spriteBit x y n = s.spriteBit x y n := rfl

/-- XOR with the same sprite bits twice is the identity (R86 corner case (i)). -/
theorem State.blit_present_blit : ((s.present (s.blit x y n).1).blit x y n).1 = s.fb := by
  refine Framebuffer.eq_of_pixel fun cx cy hx hy => ?_
  rw [State.pixel_blit _ x y n cx cy hx hy, State.present_fb, s.pixel_blit x y n cx cy hx hy,
    State.spriteBit_present, Bool.xor_assoc, Bool.xor_self, Bool.xor_false]

/-- A set bit on a dark pixel lights it, and the second draw meets it lit (R86 corner case (i)). -/
theorem State.blit_present_blit_hit {cx : Fin 64} {cy : Fin 32} (hbit : s.spriteBit x y n cx.val cy.val = true)
    (hdark : s.fb[cx][cy] = false) : ((s.present (s.blit x y n).1).blit x y n).2 = true := by
  have hlit : (s.blit x y n).1[cx][cy] = true := by
    rw [s.getElem_blit x y n, hdark, hbit, Bool.false_xor]
  exact (State.blit_hit _ x y n).mpr ⟨cx, cy, hlit, hbit⟩

end

/-! ### The obligations -/

/-- Settles O41: the blit XORs the sprite in and reports the collision; DRW adds DIRTY and writes VF last. -/
theorem drawXorsClippedSpriteAndFlagsCollision : Obligations.DrawXorsClippedSpriteAndFlagsCollision := by
  intro x y n s
  refine ⟨_, exec_drw_eq s x y n, s.getElem_blit x y n, fun hmeet => ?_, fun hmiss => ?_, fun r hr => ?_, rfl⟩
  · exact State.v_setV_flagByte _ ((s.blit_hit x y n).mpr hmeet)
  · exact State.v_setV_flagByte _ ((s.blit_no_hit x y n).mpr hmiss)
  · exact (State.getV_setV _ regF r _).trans (if_neg hr)

/-- Settles O42: with the registers given back, the second draw blits the same sprite over the first. -/
theorem drawingTwiceRestoresTheScreen : Obligations.DrawingTwiceRestoresTheScreen := by
  intro x y n s t h
  cases h
  refine ⟨_, exec_drw_eq (s.present (s.blit x y n).1) x y n, s.blit_present_blit x y n, ?_⟩
  rintro ⟨cx, cy, hbit⟩ hdark
  have hfirst : (s.blit x y n).2 = false := (s.blit_no_hit x y n).mpr fun dx dy hlit =>
    Bool.eq_false_of_not_eq_true fun hset => Bool.false_ne_true ((hdark dx dy hset).symm.trans hlit)
  have hsecond := s.blit_present_blit_hit x y n hbit (hdark cx cy hbit)
  exact ⟨State.v_setV_flagByte _ hfirst, State.v_setV_flagByte _ hsecond⟩

/-- Settles O40: CLS presents the blank framebuffer. -/
theorem clearScreenBlanksEveryPixel : Obligations.ClearScreenBlanksEveryPixel := by
  refine fun s => ⟨s.present Framebuffer.blank, rfl, fun cx cy => ?_, rfl⟩
  exact (Framebuffer.pixel_of_lt _ cx.isLt cy.isLt).symm.trans (Framebuffer.pixel_blank cx.val cy.val)

end Sys2Proof.Machine
end

section
/-! Proofs about SYS and the unrecognised words (R88, R89): the decoder on family 0, and the two kinds of step that only
advance PC. -/

namespace Sys2Proof.Machine

/-- A word below 0x1000 is one of family 0 (R42). -/
theorem fieldOp_eq_zero_of_lt {w : Word} (h : w.toNat < 0x1000) : fieldOp w = 0 := by
  apply BitVec.eq_of_toNat_eq
  rw [toNat_fieldOp]
  exact Nat.div_eq_of_lt h

/-- In family 0 the SYS row takes every word that the rows of CLS and RET leave (R46). -/
theorem decode_of_family_zero {w : Word} (hop : fieldOp w = 0) (hcls : w ≠ 0x00E0#16) (hret : w ≠ 0x00EE#16) :
    decode w = .ok (.sys (fieldNNN w)) := by
  rw [decode_eq_buildOfFields hcls hret, hop]
  rfl

theorem exec_sys (nnn : Addr12) (s : State) : exec (.sys nnn) s = .next s := rfl

/-! ### The obligations -/

/-- Settles O7: the decoder refuses every word of R47's table, and the step on a refused word is the PC advance alone. -/
theorem unrecognisedWordOnlyAdvancesPc : Obligations.UnrecognisedWordOnlyAdvancesPc :=
  fun s hf hw => step_of_unrecognised hf ((decoderRefusesExactlyTheListedWords s.fetchWord).1 hw)

/-- Settles O16: the other words of family 0 decode to SYS, which adds nothing to the PC advance. -/
theorem sysDoesNothing : Obligations.SysDoesNothing := by
  refine ⟨exec_sys, fun s hf hlt hcls hret => ?_⟩
  have hd : decode s.fetchWord = .ok (.sys (fieldNNN s.fetchWord)) :=
    decode_of_family_zero (fieldOp_eq_zero_of_lt hlt) hcls hret
  exact (step_of_decode hf hd).trans (exec_sys _ s.advance)

end Sys2Proof.Machine
end

section
/-! Proofs about the fault (R90 to R92), the host's operations (R96 to R99, R103), reset (R104) and the self-jump that
ends a run (R109). -/

namespace Sys2Proof.Machine

section
variable {s t : State}

/-! ### Every operation answers a next state (R103) -/

theorem exec_answers_next (i : Instr) (s : State) : ∃ t, exec i s = .next t := by
  cases i with
  | ret => obtain ⟨-, he⟩ | ⟨st, a, -, he⟩ := execRet_cases s <;> exact ⟨_, he⟩
  | ldKey x =>
    obtain ⟨-, -, he⟩ | ⟨k, -, -, he⟩ | ⟨k, -, -, he⟩ | ⟨k, -, -, he⟩ := execLdKey_cases x s <;> exact ⟨_, he⟩
  | _ => exact ⟨_, rfl⟩

theorem step_answers_next (s : State) : ∃ t, step s = .next t := by
  by_cases hf : s.fault = none
  · cases hd : decode s.fetchWord with
    | ok i =>
      rw [step_of_decode hf hd]
      exact exec_answers_next i s.advance
    | error e => exact ⟨_, step_of_unrecognised hf hd⟩
  · exact ⟨_, step_of_fault hf⟩

theorem applyOp_answers_next (op : HostOp) (s : State) : ∃ t, applyOp op s = .next t := by
  cases op with
  | step => exact step_answers_next s
  | romLoad bytes =>
    cases hl : s.romLoad bytes with
    | ok t => exact ⟨t, by rw [applyOp, hl]⟩
    | error e => exact ⟨s, by rw [applyOp, hl]⟩
  | _ => exact ⟨_, rfl⟩

theorem runOps_cons_of_next {op : HostOp} (h : applyOp op s = .next t) (ops : List HostOp) :
    runOps (op :: ops) s = runOps ops t := by
  rw [runOps, h]

/-! ### Who writes FAULT (R90) -/

/-- FAULT is marked W in the row of RET alone (R23). -/
theorem fault_mem_writesOf_iff (i : Instr) : Part.fault ∈ writesOf i ↔ i = .ret := by
  cases i <;> simp [writesOf]

theorem decode_eq_ret_iff (w : Word) : decode w = .ok .ret ↔ w = 0x00EE :=
  ⟨fun h => (encode_of_decode h).symm, fun h => h ▸ decodeInvertsEncode .ret rfl⟩

theorem exec_raises_fault {i : Instr} (h : exec i s = .next t) (hs : s.fault = none) (ht : t.fault ≠ none) :
    i = .ret ∧ s.stack = [] := by
  by_cases hi : i = .ret
  · subst hi
    obtain ⟨hstack, -⟩ | ⟨st, a, -, he⟩ := execRet_cases s
    · exact ⟨rfl, hstack⟩
    · cases he.symm.trans h
      exact absurd hs ht
  · have hkept : t.fault = s.fault :=
      exec_keepsAllBut_writesOf i h .fault fun hm => hi ((fault_mem_writesOf_iff i).mp hm)
    exact absurd (hkept.trans hs) ht

/-- Under a fault, reset is the one operation that writes FAULT (R92). -/
theorem applyOp_fault {op : HostOp} (hs : s.fault ≠ none) (hop : op ≠ .reset) (h : applyOp op s = .next t) :
    t.fault = s.fault := by
  cases op with
  | reset => exact absurd rfl hop
  | romLoad bytes =>
    obtain rfl | ⟨a, rfl⟩ := applyOp_romLoad_cases h
    · rfl
    · rw [State.writeBytes_frame]
  | step => cases (step_of_fault hs).symm.trans h; rfl
  | tick => cases h; rfl
  | keySet idx b =>
    cases h
    obtain he | ⟨k, he⟩ := s.keySet_cases idx b <;> rw [he]
    rfl
  | dirtyClear => cases h; rfl

/-! ### The timers under a tick (R96) -/

theorem State.toNat_tick_dt (s : State) : s.tick.dt.toNat = s.dt.toNat - 1 := toNat_tickDown s.dt

theorem State.toNat_tick_st (s : State) : s.tick.st.toNat = s.st.toNat - 1 := toNat_tickDown s.st

/-! ### The keys under key_set (R97) -/

theorem State.keySet_of_gt (s : State) {idx : Nat} (h : 15 < idx) (b : Bool) : s.keySet idx b = s := dif_neg (by omega)

theorem State.keySet_val (s : State) (k : Key) (b : Bool) : s.keySet k.val b = s.setKey k b := dif_pos k.isLt

/-- Everything a key write does to a key read (R18). -/
theorem State.keyDown_setKey (s : State) (k j : Key) (b : Bool) :
    (s.setKey k b).keyDown j = if j = k then b else s.keyDown j := by
  simp only [State.keyDown, State.setKey_keys, Fin.getElem_fin, Vector.getElem_set, Fin.ext_iff, eq_comm]

theorem State.keyDown_keySet_same (s : State) (k : Key) (b : Bool) : (s.keySet k.val b).keyDown k = b := by
  rw [State.keySet_val, State.keyDown_setKey, if_pos rfl]

theorem State.keyDown_keySet_other (s : State) {k j : Key} (h : j ≠ k) (b : Bool) :
    (s.keySet k.val b).keyDown j = s.keyDown j := by
  rw [State.keySet_val, State.keyDown_setKey, if_neg h]

/-! ### The jump to its own address (R109) -/

theorem or_1000_eq_encode_jp {a : Word} (h : a.toNat < 4096) : 0x1000#16 ||| a = encode (.jp (a.setWidth 12)) := by
  have hlow : (a.setWidth 12).toNat = a.toNat := by
    rw [BitVec.toNat_setWidth, Nat.mod_eq_of_lt h]
  refine BitVec.eq_of_toNat_eq ?_
  rw [encode, encNNN, BitVec.toNat_append, hlow, BitVec.toNat_or]
  rfl

theorem addrOperand_setWidth {a : Word} (h : a.toNat < 4096) : addrOperand (a.setWidth 12) = a := by
  refine BitVec.eq_of_toNat_eq ?_
  rw [toNat_addrOperand, BitVec.toNat_setWidth, Nat.mod_eq_of_lt h]

theorem exec_jp_eq (nnn : Addr12) (s : State) : exec (.jp nnn) s = .next (s.setPc (addrOperand nnn)) := rfl

/-! ### The reset values (R104) -/

theorem State.reset_v (r : Reg) : State.reset.v[r] = 0 := Vector.getElem_replicate r.isLt

theorem State.reset_fb (cx : Fin 64) (cy : Fin 32) : State.reset.fb[cx][cy] = false :=
  (Framebuffer.pixel_of_lt _ cx.isLt cy.isLt).symm.trans (Framebuffer.pixel_blank cx.val cy.val)

theorem State.reset_keys (k : Key) : State.reset.keys[k] = false := Vector.getElem_replicate k.isLt

end

/-! ### The obligations -/

/-- Settles O8, by induction on the schedule: each operation hands its next state to the rest. -/
theorem everyOperationAnswersANextState : Obligations.EveryOperationAnswersANextState := by
  intro ops
  induction ops with
  | nil => exact fun s => ⟨s, rfl⟩
  | cons op ops ih =>
    intro s
    obtain ⟨u, hu⟩ := applyOp_answers_next op s
    rw [runOps_cons_of_next hu]
    exact ih u

/-- Settles O39: both timers take the natural-number predecessor, which is floored at 0. -/
theorem tickCountsBothTimersDownToZero : Obligations.TickCountsBothTimersDownToZero := by
  intro s
  have hdt := s.toNat_tick_dt
  have hst := s.toNat_tick_st
  exact ⟨fun _ => hdt, fun h0 => by rw [hdt, h0], fun _ => hst, fun h0 => by rw [hst, h0], rfl⟩

/-- Settles O43: RET is the one instruction whose row marks FAULT, and its word is the only one that decodes to it. -/
theorem onlyRetOnEmptyStackFaults : Obligations.OnlyRetOnEmptyStackFaults := by
  refine ⟨rfl, fun s hs => ⟨fun hw hstack => ?_, fun t h ht => ?_⟩⟩
  · rw [step_of_decode hs ((decode_eq_ret_iff _).mpr hw)]
    exact exec_ret_of_empty (s := s.advance) hstack
  · obtain ⟨hf, -⟩ | ⟨-, i, hd, he⟩ | ⟨-, e, -, rfl⟩ := step_cases h
    · exact absurd hs hf
    · obtain ⟨rfl, hstack⟩ := exec_raises_fault he hs ht
      exact ⟨(decode_eq_ret_iff _).mp hd, hstack⟩
    · exact absurd hs ht

/-- Settles O44: the step is inert, and of the other operations reset alone writes FAULT. -/
theorem faultStopsStepsButNotTheHost : Obligations.FaultStopsStepsButNotTheHost := by
  intro s hs
  refine ⟨step_of_fault hs, fun op hop => ?_, s.keyDown_keySet_same, fun _ => s.toNat_tick_dt,
    fun _ => s.toNat_tick_st, rfl, rfl, rfl, rfl⟩
  obtain ⟨t, ht⟩ := applyOp_answers_next op s
  exact ⟨t, ht, applyOp_fault hs hop ht⟩

/-- Settles O46: an index is out of range, or it is the number of one key. -/
theorem keySetWritesOneKeyOrNothing : Obligations.KeySetWritesOneKeyOrNothing := by
  refine fun s idx b => ⟨fun h => s.keySet_of_gt h b, ?_⟩
  rintro k rfl
  refine ⟨s.keyDown_keySet_same k b, fun j hj => s.keyDown_keySet_other hj b, ?_⟩
  rw [State.keySet_val]
  rfl

/-- Settles O47: each read is its field, and FAULT reads as the code of the one fault. -/
theorem presentationAndStatusReads : Obligations.PresentationAndStatusReads := by
  refine fun s => ⟨rfl, rfl, rfl, ?_⟩
  rw [State.statusRead]
  cases s.fault with
  | none => rfl
  | some f => cases f; rfl

/-- Settles O17: the word at PC is the jump to PC, which undoes the fetch's advance. -/
theorem selfJumpStepsChangeNothing : Obligations.SelfJumpStepsChangeNothing := by
  rintro s ⟨hf, -, hpc, hw⟩
  have hd : decode s.fetchWord = .ok (.jp (s.pc.setWidth 12)) := by
    rw [hw, or_1000_eq_encode_jp hpc]
    exact decodeInvertsEncode _ rfl
  rw [step_of_decode hf hd, exec_jp_eq, addrOperand_setWidth hpc]
  rfl

/-- Settles O48: after reset nothing is listed in memory, so it reads as the font and zeros (R27, R28). -/
theorem resetLeavesTheSpecifiedState : Obligations.ResetLeavesTheSpecifiedState :=
  fun s => ⟨rfl, rfl, fontIsInPlaceAtTheStartOfARun.1 s, fun _ _ hout => Memory.unlisted_outside hout,
    State.reset_v, rfl, rfl, rfl, State.reset_fb, rfl, State.reset_keys, rfl, rfl, s.rndCount, rfl⟩

end Sys2Proof.Machine
end
